-- ==== Sys2Proof/Word.lean ====
section
/-! DEFINITION. The words, the port types and the request form of the identifier block.

The port types are those of 00_scope.md rule R11; the request form is 30_encoding.md rules R62
and R72, with the host program's operand forms of rule R74. -/

namespace Sys2Proof

/-- One byte, used only by the word serialiser (20_memory.md rule R51). -/
abbrev Byte := BitVec 8

/-- A U16: the storage width of a standard identifier (00_scope.md rule R7, `STD_REPR`). -/
abbrev Half := BitVec 16

/-- A U32: the width of each IdReg word and of an extended identifier (rule R7, `WORD`, `EXT_REPR`). -/
abbrev Word := BitVec 32

/-- The 8-bit operation select `op[7:0]` (30_encoding.md rule R62). -/
abbrev Select := BitVec 8

/-- The tagged identifier `Id = (tag:1, val:32)` as a closed union of two variants
(00_scope.md rule R11; 41_id_union.md rule R125): tag 0 is `standard`, tag 1 is `extended`.
`val` is the raw 32-bit value of the port; its range is the invariant of 10_state.md rule R21. -/
inductive CanId where
  | standard (val : Word)
  | extended (val : Word)
  deriving DecidableEq, Repr

/-- The packed register value: the code word (control and flag bits) and the id word (shifted
identifier bits), 10_state.md rules R21, R23 and R24. -/
structure IdReg where
  code : Word
  id : Word
  deriving DecidableEq, Repr

/-- The result of IDREG_CMP: the greater value is the higher-priority frame (30_encoding.md rule
R73; 43_arbitration.md rule R150). -/
inductive ArbOrder where
  | less
  | equal
  | greater
  deriving DecidableEq, Repr

/-- The types of operands and results (00_scope.md rule R11). -/
inductive ValueType where
  | u16
  | u32
  | bool
  | stdId
  | extId
  | id
  | idReg
  | optStd
  | optExt
  | ordering
  deriving DecidableEq, Repr

/-- A typed value on a port (00_scope.md rule R11). StdId, ExtId and Id hold their raw bits, so that
a value which breaks its invariant can be presented and refused (30_encoding.md rule R70). An absent
option is `none`: its `val` is 0 and carries no meaning. -/
inductive Value where
  | u16 (v : Half)
  | u32 (v : Word)
  | bool (b : Bool)
  | stdId (raw : Half)
  | extId (raw : Word)
  | id (i : CanId)
  | idReg (r : IdReg)
  | optStd (v : Option Half)
  | optExt (v : Option Word)
  | ordering (o : ArbOrder)
  deriving DecidableEq, Repr

/-- An operand of a host program's line (30_encoding.md rule R74): a literal, a name `vK`, or the
unwrap `vK.val` of a name that holds an option. -/
inductive Operand where
  | lit (v : Value)
  | name (n : Nat)
  | unwrap (n : Nat)
  deriving DecidableEq, Repr

/-- One line of a host program: the name its result is bound to, the select byte and the operand
slots, as the host writes them (10_state.md rule R27; 30_encoding.md rules R62 and R72). A name `vN`
is its number N (10_state.md rule R22). -/
structure Frame where
  dst : Nat
  select : Select
  slots : List Operand
  deriving DecidableEq, Repr

/-- The operand position a fault record names for IDREG_CMP (60_exceptions.md rule R171). -/
inductive Slot where
  | a
  | b
  deriving DecidableEq, Repr

/-- The faults of the block with the value each records (60_exceptions.md rule R171). `operand` is
given by IDREG_CMP only. -/
inductive FaultInfo where
  | uncheckedStdRange (raw : Half)
  | uncheckedExtRange (raw : Word)
  | decodeRange (code id : Word) (operand : Option Slot)
  deriving DecidableEq, Repr

/-- The fault record of a host program: request index and fault (60_exceptions.md rule R176). -/
structure FaultRecord where
  index : Nat
  info : FaultInfo
  deriving DecidableEq, Repr

/-- The twenty operations, one per row of opcode_table.json (30_encoding.md rule R63). -/
inductive Op where
  | stdNew
  | stdNewUnchecked
  | stdAsRaw
  | extNew
  | extNewUnchecked
  | extAsRaw
  | extStandardId
  | idFromStd
  | idFromExt
  | idDefault
  | idAsRaw
  | idregNewStd
  | idregNewExt
  | idregWithRtr
  | idregIsExt
  | idregIsStd
  | idregRtr
  | idregToId
  | idregCmp
  | idregEq
  deriving DecidableEq, Repr

end Sys2Proof
end

