-- ==== Sys2Proof/Machine/Layout.lean ====
section
/-! DEFINITION. The constants of the register layout (00_scope.md rules R7 and R8). -/

namespace Sys2Proof.Machine

/-- The largest standard identifier, 11 bits (rule R7, `STD_BITS`). -/
@[simp] abbrev stdMax : Nat := 0x7FF

/-- The largest extended identifier, 29 bits (rule R7, `EXT_BITS`). -/
@[simp] abbrev extMax : Nat := 0x1FFFFFFF

/-- A standard identifier sits in id bits 28..18 (rule R7, `STD_SHIFT`). -/
@[simp] abbrev stdShift : Nat := 18

/-- An extended identifier sits in id bits 28..0 (rule R7, `EXT_SHIFT`; 90_conflicts.md C2). -/
@[simp] abbrev extShift : Nat := 0

/-- The base id is bits 28..18 of an extended identifier (rule R7, `BASE_SHIFT`). -/
@[simp] abbrev baseShift : Nat := 18

/-- Position of the SRR bit in the code word (rule R7). -/
@[simp] abbrev srrShift : Nat := 22

/-- Position of the IDE bit in the code word (rule R7). -/
@[simp] abbrev ideShift : Nat := 21

/-- Position of the RTR bit in the code word (rule R7). -/
@[simp] abbrev rtrShift : Nat := 20

/-- `SRR_MASK` (rule R8). -/
abbrev srrMask : Word := 1#32 <<< srrShift

/-- `IDE_MASK` (rule R8). -/
abbrev ideMask : Word := 1#32 <<< ideShift

/-- `RTR_MASK` (rule R8). -/
abbrev rtrMask : Word := 1#32 <<< rtrShift

/-- `DLC_MASK`, bits 19..16 (rule R8; 90_conflicts.md C1). -/
abbrev dlcMask : Word := 0xF#32 <<< 16

/-- `TIMESTAMP_MASK`, bits 15..0 (rule R8). -/
abbrev timestampMask : Word := 0xFFFF#32

/-- `RESERVED_CODE_MASK`, bits 31..23 (rule R8). -/
abbrev reservedCodeMask : Word := 0x1FF#32 <<< 23

/-- `STD_ID_MASK`, the standard identifier or base id in the id word (rule R8). -/
abbrev stdIdMask : Word := 0x7FF#32 <<< stdShift

/-- `EXT_ID_MASK` (rule R8). -/
abbrev extIdMask : Word := 0x1FFFFFFF#32

/-- `ID_HIGH_MASK`, bits 31..29 of the id word (rule R8). -/
abbrev idHighMask : Word := 0x7#32 <<< 29

/-- `w[hi:lo]` as an unsigned number (00_scope.md rule R9). -/
def bits (w : Word) (hi lo : Nat) : Nat := w.toNat / 2 ^ lo % 2 ^ (hi - lo + 1)

end Sys2Proof.Machine
end

