-- ==== Sys2Proof/Machine/Values.lean ====
section
/-! DEFINITION. Types, invariants and port bits of values (00_scope.md rule R11; 10_state.md rule
R21; 30_encoding.md rule R73). -/

namespace Sys2Proof

open Sys2Proof.Machine

/-- The type of a value. -/
def Value.type : Value → ValueType
  | .u16 _ => .u16
  | .u32 _ => .u32
  | .bool _ => .bool
  | .stdId _ => .stdId
  | .extId _ => .extId
  | .id _ => .id
  | .idReg _ => .idReg
  | .optStd _ => .optStd
  | .optExt _ => .optExt
  | .ordering _ => .ordering

/-- The invariant of an Id (10_state.md rule R21). -/
def CanId.ok : CanId → Bool
  | .standard v => v.toNat ≤ stdMax
  | .extended v => v.toNat ≤ extMax

/-- The invariant of a value (10_state.md rule R21). U16, U32, Bool, IdReg and Ordering have none
(30_encoding.md rule R70). -/
def Value.ok : Value → Bool
  | .u16 _ => true
  | .u32 _ => true
  | .bool _ => true
  | .stdId raw => raw.toNat ≤ stdMax
  | .extId raw => raw.toNat ≤ extMax
  | .id i => i.ok
  | .idReg _ => true
  | .optStd none => true
  | .optStd (some raw) => raw.toNat ≤ stdMax
  | .optExt none => true
  | .optExt (some raw) => raw.toNat ≤ extMax
  | .ordering _ => true

/-- The width in bits of a type on a port (10_state.md rule R21; opcode_table.json). -/
def ValueType.width : ValueType → Nat
  | .u16 => 16
  | .u32 => 32
  | .bool => 1
  | .stdId => 16
  | .extId => 32
  | .id => 33
  | .idReg => 64
  | .optStd => 17
  | .optExt => 33
  | .ordering => 2

/-- The flat value of an Id, whichever variant it is. -/
def CanId.val : CanId → Word
  | .standard v => v
  | .extended v => v

/-- The tag of an Id: 0 is Standard, 1 is Extended (00_scope.md rule R11). -/
def CanId.tag : CanId → Nat
  | .standard _ => 0
  | .extended _ => 1

/-- The two bits of an Ordering (30_encoding.md rule R73). -/
def ArbOrder.bits : ArbOrder → Nat
  | .less => 0b11
  | .equal => 0b00
  | .greater => 0b01

/-- The bits of a value on a port (30_encoding.md rule R73), read as one number. Where the rule
writes a pair, its first part is the more significant one (the concatenation of 00_scope.md rule
R9; DEDUCED, log 13). -/
def Value.bits : Value → Nat
  | .u16 v => v.toNat
  | .u32 v => v.toNat
  | .bool b => b.toNat
  | .stdId raw => raw.toNat
  | .extId raw => raw.toNat
  | .id i => i.tag * 2 ^ 32 + i.val.toNat
  | .idReg r => r.code.toNat * 2 ^ 32 + r.id.toNat
  | .optStd none => 0
  | .optStd (some raw) => 2 ^ 16 + raw.toNat
  | .optExt none => 0
  | .optExt (some raw) => 2 ^ 32 + raw.toNat
  | .ordering o => o.bits

/-- The value of a given type that a port's bits stand for; only the low bits of `w`, as many as
the type is wide, are read. The two bits 0b10, which no Ordering has (30_encoding.md rule R73),
read as Equal; no operand of any operation is an Ordering. -/
def Value.ofBits (t : ValueType) (w : Nat) : Value :=
  match t with
  | .u16 => .u16 (BitVec.ofNat 16 w)
  | .u32 => .u32 (BitVec.ofNat 32 w)
  | .bool => .bool (w % 2 == 1)
  | .stdId => .stdId (BitVec.ofNat 16 w)
  | .extId => .extId (BitVec.ofNat 32 w)
  | .id =>
    if w / 2 ^ 32 % 2 = 0 then .id (.standard (BitVec.ofNat 32 w))
    else .id (.extended (BitVec.ofNat 32 w))
  | .idReg => .idReg { code := BitVec.ofNat 32 (w / 2 ^ 32), id := BitVec.ofNat 32 w }
  | .optStd => .optStd (if w / 2 ^ 16 % 2 = 0 then none else some (BitVec.ofNat 16 w))
  | .optExt => .optExt (if w / 2 ^ 32 % 2 = 0 then none else some (BitVec.ofNat 32 w))
  | .ordering =>
    .ordering (if w % 4 = 3 then .less else if w % 4 = 1 then .greater else .equal)

/-- The select value of an operation (30_encoding.md rule R63). -/
def Op.select : Op → Select
  | .stdNew => 0x01
  | .stdNewUnchecked => 0x02
  | .stdAsRaw => 0x03
  | .extNew => 0x04
  | .extNewUnchecked => 0x05
  | .extAsRaw => 0x06
  | .extStandardId => 0x07
  | .idFromStd => 0x08
  | .idFromExt => 0x09
  | .idDefault => 0x0A
  | .idAsRaw => 0x0B
  | .idregNewStd => 0x10
  | .idregNewExt => 0x11
  | .idregWithRtr => 0x12
  | .idregIsExt => 0x13
  | .idregIsStd => 0x14
  | .idregRtr => 0x15
  | .idregToId => 0x16
  | .idregCmp => 0x17
  | .idregEq => 0x18

/-- The operation a select value names; every other select is reserved (30_encoding.md rules R63
and R69). -/
def Op.ofSelect (w : Select) : Option Op :=
  match w.toNat with
  | 0x01 => some .stdNew
  | 0x02 => some .stdNewUnchecked
  | 0x03 => some .stdAsRaw
  | 0x04 => some .extNew
  | 0x05 => some .extNewUnchecked
  | 0x06 => some .extAsRaw
  | 0x07 => some .extStandardId
  | 0x08 => some .idFromStd
  | 0x09 => some .idFromExt
  | 0x0A => some .idDefault
  | 0x0B => some .idAsRaw
  | 0x10 => some .idregNewStd
  | 0x11 => some .idregNewExt
  | 0x12 => some .idregWithRtr
  | 0x13 => some .idregIsExt
  | 0x14 => some .idregIsStd
  | 0x15 => some .idregRtr
  | 0x16 => some .idregToId
  | 0x17 => some .idregCmp
  | 0x18 => some .idregEq
  | _ => none

/-- The types of an operation's operand slots (30_encoding.md rule R63, columns a and b). -/
def Op.slotTypes : Op → List ValueType
  | .stdNew => [.u16]
  | .stdNewUnchecked => [.u16]
  | .stdAsRaw => [.stdId]
  | .extNew => [.u32]
  | .extNewUnchecked => [.u32]
  | .extAsRaw => [.extId]
  | .extStandardId => [.extId]
  | .idFromStd => [.stdId]
  | .idFromExt => [.extId]
  | .idDefault => []
  | .idAsRaw => [.id]
  | .idregNewStd => [.stdId]
  | .idregNewExt => [.extId]
  | .idregWithRtr => [.idReg, .bool]
  | .idregIsExt => [.idReg]
  | .idregIsStd => [.idReg]
  | .idregRtr => [.idReg]
  | .idregToId => [.idReg]
  | .idregCmp => [.idReg, .idReg]
  | .idregEq => [.idReg, .idReg]

/-- The type of an operation's result (30_encoding.md rule R63, column result). -/
def Op.resultType : Op → ValueType
  | .stdNew => .optStd
  | .stdNewUnchecked => .stdId
  | .stdAsRaw => .u16
  | .extNew => .optExt
  | .extNewUnchecked => .extId
  | .extAsRaw => .u32
  | .extStandardId => .stdId
  | .idFromStd => .id
  | .idFromExt => .id
  | .idDefault => .id
  | .idAsRaw => .u32
  | .idregNewStd => .idReg
  | .idregNewExt => .idReg
  | .idregWithRtr => .idReg
  | .idregIsExt => .bool
  | .idregIsStd => .bool
  | .idregRtr => .bool
  | .idregToId => .id
  | .idregCmp => .ordering
  | .idregEq => .bool

end Sys2Proof
end

