-- ==== Sys2Proof/Syntax.lean ====
section
/-! DEFINITION. The instructions: one constructor per row of opcode_table.json (30_encoding.md rule
R63), with its operands as a host program's line writes them (rule R74). `dst` is the name the host
binds the result to (10_state.md rule R22); it is no part of the request. -/

namespace Sys2Proof

/-- A request of the block with its result name. -/
inductive Instr where
  | stdNew (dst : Nat) (raw : Operand)
  | stdNewUnchecked (dst : Nat) (raw : Operand)
  | stdAsRaw (dst : Nat) (s : Operand)
  | extNew (dst : Nat) (raw : Operand)
  | extNewUnchecked (dst : Nat) (raw : Operand)
  | extAsRaw (dst : Nat) (e : Operand)
  | extStandardId (dst : Nat) (e : Operand)
  | idFromStd (dst : Nat) (s : Operand)
  | idFromExt (dst : Nat) (e : Operand)
  | idDefault (dst : Nat)
  | idAsRaw (dst : Nat) (i : Operand)
  | idregNewStd (dst : Nat) (s : Operand)
  | idregNewExt (dst : Nat) (e : Operand)
  | idregWithRtr (dst : Nat) (r b : Operand)
  | idregIsExt (dst : Nat) (r : Operand)
  | idregIsStd (dst : Nat) (r : Operand)
  | idregRtr (dst : Nat) (r : Operand)
  | idregToId (dst : Nat) (r : Operand)
  | idregCmp (dst : Nat) (a b : Operand)
  | idregEq (dst : Nat) (a b : Operand)
  deriving DecidableEq, Repr

end Sys2Proof
end

