-- ==== Sys2Proof/WellFormed.lean ====
section
/-! DEFINITION. Well-formed instructions: what can be told of an operand before its value is known
(30_encoding.md rules R70 and R74). -/

namespace Sys2Proof

/-- The operation of an instruction. -/
def Instr.op : Instr → Op
  | .stdNew _ _ => .stdNew
  | .stdNewUnchecked _ _ => .stdNewUnchecked
  | .stdAsRaw _ _ => .stdAsRaw
  | .extNew _ _ => .extNew
  | .extNewUnchecked _ _ => .extNewUnchecked
  | .extAsRaw _ _ => .extAsRaw
  | .extStandardId _ _ => .extStandardId
  | .idFromStd _ _ => .idFromStd
  | .idFromExt _ _ => .idFromExt
  | .idDefault _ => .idDefault
  | .idAsRaw _ _ => .idAsRaw
  | .idregNewStd _ _ => .idregNewStd
  | .idregNewExt _ _ => .idregNewExt
  | .idregWithRtr _ _ _ => .idregWithRtr
  | .idregIsExt _ _ => .idregIsExt
  | .idregIsStd _ _ => .idregIsStd
  | .idregRtr _ _ => .idregRtr
  | .idregToId _ _ => .idregToId
  | .idregCmp _ _ _ => .idregCmp
  | .idregEq _ _ _ => .idregEq

/-- The name an instruction's result is bound to. -/
def Instr.dst : Instr → Nat
  | .stdNew d _ => d
  | .stdNewUnchecked d _ => d
  | .stdAsRaw d _ => d
  | .extNew d _ => d
  | .extNewUnchecked d _ => d
  | .extAsRaw d _ => d
  | .extStandardId d _ => d
  | .idFromStd d _ => d
  | .idFromExt d _ => d
  | .idDefault d => d
  | .idAsRaw d _ => d
  | .idregNewStd d _ => d
  | .idregNewExt d _ => d
  | .idregWithRtr d _ _ => d
  | .idregIsExt d _ => d
  | .idregIsStd d _ => d
  | .idregRtr d _ => d
  | .idregToId d _ => d
  | .idregCmp d _ _ => d
  | .idregEq d _ _ => d

/-- The operand slots of an instruction, a before b. -/
def Instr.operands : Instr → List Operand
  | .stdNew _ a => [a]
  | .stdNewUnchecked _ a => [a]
  | .stdAsRaw _ a => [a]
  | .extNew _ a => [a]
  | .extNewUnchecked _ a => [a]
  | .extAsRaw _ a => [a]
  | .extStandardId _ a => [a]
  | .idFromStd _ a => [a]
  | .idFromExt _ a => [a]
  | .idDefault _ => []
  | .idAsRaw _ a => [a]
  | .idregNewStd _ a => [a]
  | .idregNewExt _ a => [a]
  | .idregWithRtr _ a b => [a, b]
  | .idregIsExt _ a => [a]
  | .idregIsStd _ a => [a]
  | .idregRtr _ a => [a]
  | .idregToId _ a => [a]
  | .idregCmp _ a b => [a, b]
  | .idregEq _ a b => [a, b]

/-- Whether an operand can fill a slot of the given type. A literal has the slot's type and meets
its invariant (rule R70); an unwrap yields a StdId or an ExtId (rule R74); what a name holds is
known only when the line is presented. -/
def Operand.fits (t : ValueType) : Operand → Bool
  | .lit v => v.type == t && v.ok
  | .name _ => true
  | .unwrap _ => t == .stdId || t == .extId

/-- Whether operands fill slots of the given types, one each, in order. -/
def slotsFit : List ValueType → List Operand → Bool
  | [], [] => true
  | t :: ts, o :: os => o.fits t && slotsFit ts os
  | _, _ => false

/-- A well-formed instruction: every operand can fill its slot (rule R70). -/
def Instr.wf (i : Instr) : Bool := slotsFit i.op.slotTypes i.operands

end Sys2Proof
end

