-- ==== Sys2Proof/Decode.lean ====
section
/-! DEFINITION. Decoding and encoding of requests (30_encoding.md rules R62, R63, R69, R70, R72).

A request is a select byte and typed operand slots; `decode` reads a host program's line and
`decodeWord` a bit-packed request. Both are total. -/

namespace Sys2Proof

/-- Why a line is no instruction (30_encoding.md rules R69 and R70). -/
inductive DecodeError where
  | reservedOp
  | operandType
  deriving DecidableEq, Repr

/-- The instruction of a row with no operand slot. -/
def withNone (i : Instr) : List Operand → Option Instr
  | [] => some i
  | _ => none

/-- The instruction of a row with one operand slot. -/
def withOne (mk : Operand → Instr) : List Operand → Option Instr
  | [a] => some (mk a)
  | _ => none

/-- The instruction of a row with two operand slots. -/
def withTwo (mk : Operand → Operand → Instr) : List Operand → Option Instr
  | [a, b] => some (mk a b)
  | _ => none

/-- The instruction with the given operation, result name and slots; none when the number of slots
is not the row's (rule R70). -/
def Op.instr (op : Op) (d : Nat) (slots : List Operand) : Option Instr :=
  match op with
  | .stdNew => withOne (.stdNew d) slots
  | .stdNewUnchecked => withOne (.stdNewUnchecked d) slots
  | .stdAsRaw => withOne (.stdAsRaw d) slots
  | .extNew => withOne (.extNew d) slots
  | .extNewUnchecked => withOne (.extNewUnchecked d) slots
  | .extAsRaw => withOne (.extAsRaw d) slots
  | .extStandardId => withOne (.extStandardId d) slots
  | .idFromStd => withOne (.idFromStd d) slots
  | .idFromExt => withOne (.idFromExt d) slots
  | .idDefault => withNone (.idDefault d) slots
  | .idAsRaw => withOne (.idAsRaw d) slots
  | .idregNewStd => withOne (.idregNewStd d) slots
  | .idregNewExt => withOne (.idregNewExt d) slots
  | .idregWithRtr => withTwo (.idregWithRtr d) slots
  | .idregIsExt => withOne (.idregIsExt d) slots
  | .idregIsStd => withOne (.idregIsStd d) slots
  | .idregRtr => withOne (.idregRtr d) slots
  | .idregToId => withOne (.idregToId d) slots
  | .idregCmp => withTwo (.idregCmp d) slots
  | .idregEq => withTwo (.idregEq d) slots

/-- The decoder: ReservedOp before OperandType (60_exceptions.md rule R174). -/
def decode (f : Frame) : Except DecodeError Instr :=
  match Op.ofSelect f.select with
  | none => .error .reservedOp
  | some op =>
    match op.instr f.dst f.slots with
    | none => .error .operandType
    | some i => if i.wf then .ok i else .error .operandType

/-- The encoder: the line of an instruction. -/
def encode (i : Instr) : Frame :=
  { dst := i.dst, select := i.op.select, slots := i.operands }

/-- The operand slots in the bits above the select, slot a lowest, each as wide as its type
(DESIGN CHOICE, log 10). Nonzero bits above the last slot are one slot too many, so that the
decoder refuses them; bits that a short request does not have are zeros (DESIGN CHOICE, log 11). -/
def slotsOfBits : List ValueType → Nat → List Operand
  | [], w => if w = 0 then [] else [.lit (.u32 (BitVec.ofNat 32 w))]
  | t :: ts, w => .lit (Value.ofBits t w) :: slotsOfBits ts (w / 2 ^ t.width)

/-- The line of a bit-packed request: the select in bits 7..0, then the slots its row names
(rules R62 and R72). A reserved select has no slots. -/
def frameOfWord (d : Nat) (w : Nat) : Frame :=
  let sel : Select := BitVec.ofNat 8 w
  match Op.ofSelect sel with
  | none => { dst := d, select := sel, slots := [] }
  | some op => { dst := d, select := sel, slots := slotsOfBits op.slotTypes (w / 2 ^ 8) }

/-- The decoder of a bit-packed request. -/
def decodeWord (d : Nat) (w : Nat) : Except DecodeError Instr := decode (frameOfWord d w)

/-- The bits of operand slots that are all literals; none where one is not. -/
def bitsOfSlots : List Operand → Option Nat
  | [] => some 0
  | .lit v :: os => (bitsOfSlots os).map fun rest => v.bits + 2 ^ v.type.width * rest
  | .name _ :: _ => none
  | .unwrap _ :: _ => none

/-- The encoder of a bit-packed request; none where an operand is a name, since the host presents
only values (30_encoding.md rule R62). -/
def encodeWord (i : Instr) : Option Nat :=
  (bitsOfSlots i.operands).map fun rest => i.op.select.toNat + 2 ^ 8 * rest

/-- The instruction of a request whose bits are `w`, bit 0 the least significant bit of the select
and every bit from `nbits` up zero, the bits of operand slots above `nbits` among them (DESIGN
CHOICE, log 11); its result is named v0. -/
def decodeTableWord (nbits w : Nat) : Option Instr :=
  match decodeWord 0 (w % 2 ^ nbits) with
  | .ok i => some i
  | .error _ => none

end Sys2Proof
end

