-- ==== Sys2Proof/Config.lean ====
section
/-! DEFINITION. The build parameters of the block (00_scope.md rules R3 and R7). -/

namespace Sys2Proof

/-- The parameters that are fixed when the block is built (70_reset_and_hazards.md rule R192).
`srrOnExt` is SRR_ON_EXT: whether IDREG_NEW_EXT sets the SRR bit. It stands as a field of the state,
which no operation writes, so that a statement about every state covers both values
(92_eei_decisions.md D2). DESIGN CHOICE, log 8. -/
structure Config where
  srrOnExt : Bool
  deriving DecidableEq, Repr

/-- The spec's default, SRR_ON_EXT = false (00_scope.md rule R7). -/
def Config.specDefault : Config := { srrOnExt := false }

/-- The two byte orders a serialiser of a 32-bit word can have. -/
inductive ByteOrder where
  | little
  | big
  deriving DecidableEq, Repr, Inhabited

/-- WORD_BYTE_ORDER, which the spec leaves OPEN (00_scope.md rule R7; 20_memory.md rule R51): a
constant with no value, used only where a word is serialised to bytes. Log 9. -/
opaque Config.wordByteOrder : ByteOrder

end Sys2Proof
end

