-- ==== Sys2Proof/Machine/State.lean ====
section
/-! DEFINITION. The state of the machine, the reasons it stops, and the state after reset.

The block itself keeps no state (10_state.md rule R20). What the spec gives beside it is the host
program of each agent: its requests, its request index, its bound names and its fault record
(10_state.md rules R22 and R27; 60_exceptions.md rules R176 and R183), and the build parameter
SRR_ON_EXT (00_scope.md R7). -/

namespace Sys2Proof.Machine

/-- An agent's host program (10_state.md rule R27; 60_exceptions.md rule R183). -/
structure AgentState where
  /-- The requests, in the order the host presents them (10_state.md rule R27). -/
  program : List Frame
  /-- The request index (10_state.md rule R27). -/
  index : Nat
  /-- The bound names with their values, names strictly rising; an unlisted name holds no value
  (10_state.md rule R22). -/
  bindings : List (Nat × Value)
  /-- The fault record, absent until a request faults (60_exceptions.md rule R176). -/
  faultRecord : Option FaultRecord
  deriving DecidableEq, Repr

/-- The machine's state: the host program of the agent at the block's request port, the host
programs of the other agents, and whose turns come next. -/
structure State extends AgentState where
  /-- The build parameters; no step changes them (70_reset_and_hazards.md rule R192). -/
  config : Config
  /-- The number of the agent at the port. -/
  agent : Nat
  /-- The host programs of the other agents by number, numbers strictly rising; an entry for the
  agent at the port is not read (60_exceptions.md rule R183; log 15). -/
  agents : List (Nat × AgentState)
  /-- The interleaving: the agents whose turn comes after this request, the next first. Each has the
  port for one request, the last of them from then on (20_memory.md rule R55; log 15). -/
  turns : List Nat
  deriving DecidableEq, Repr

/-- Why the machine stops with a fault. -/
inductive Fault where
  /-- Raised by `step` when it is asked to go on after a request faulted and no other agent has a
  turn: the fault ended the program and the next request is not presented (60_exceptions.md rule
  R176). It carries the fault record. Safe: the spec says the model admits no such run as good. -/
  | programFaulted (record : FaultRecord)
  deriving DecidableEq, Repr

/-- Why a line is given no meaning. Every refusal changes nothing and stops its agent's program
(60_exceptions.md rule R173: "it errs toward unprovable"), so all of them are safe; where no other
agent has a turn it stops the run. -/
inductive Refusal where
  /-- Raised by `exec` for an instruction with no meaning yet; no arm raises it. Safe. -/
  | notModelled (mnemonic : String)
  /-- `Refused(ReservedOp)`, raised by `step` for a reserved select (30_encoding.md rule R69). Safe. -/
  | reservedOp
  /-- `Refused(OperandType)`, raised by `step` and by every meaning that has an operand: wrong
  number or type of operands, or a broken invariant (30_encoding.md rule R70). Safe. -/
  | operandType
  /-- Raised by `step` and every meaning with an operand: the line reads a name that no earlier
  request bound (10_state.md rule R22). Safe. -/
  | unboundName (n : Nat)
  /-- Raised by `step` and every meaning: the line binds a name that is bound (10_state.md rule R22
  says a name is bound once; DESIGN CHOICE, log 5). Safe. -/
  | nameAlreadyBound (n : Nat)
  /-- Raised by `step` and every meaning with an operand: the line unwraps an option whose `valid`
  is 0 (30_encoding.md rule R74). Safe. -/
  | absentValue (n : Nat)
  /-- Raised by `step` and every meaning with an operand: the line unwraps a value that is no option
  (30_encoding.md rule R74 gives the unwrap to options only; DESIGN CHOICE, log 7). Safe. -/
  | notAnOption (n : Nat)
  deriving DecidableEq, Repr

/-- After reset no host program is loaded, no name is bound and the fault record is empty
(70_reset_and_hazards.md rules R190 and R191; 10_state.md rule R27; log 8 and log 12). One agent,
number 0, has the port (log 15). -/
def State.reset : State :=
  { program := [], index := 0, bindings := [], faultRecord := none
    config := Config.specDefault, agent := 0, agents := [], turns := [] }

end Sys2Proof.Machine
end

