-- ==== Sys2Proof/Machine/Ops.lean ====
section
/-! DEFINITION. The named operations on the host program's state: names, completing a request,
raising a fault, fetching a line and loading a program. -/

namespace Sys2Proof.Machine

/-- The entry of a key in a list keyed by numbers; none where it has none. -/
def lookup {α : Type} (n : Nat) : List (Nat × α) → Option α
  | [] => none
  | (k, v) :: rest => if n = k then some v else lookup n rest

/-- The list with a key bound to an entry, keeping the keys strictly rising. -/
def bindName {α : Type} (n : Nat) (v : α) : List (Nat × α) → List (Nat × α)
  | [] => [(n, v)]
  | (k, w) :: rest =>
    if n < k then (n, v) :: (k, w) :: rest
    else if n = k then (n, v) :: rest
    else (k, w) :: bindName n v rest

/-- Whether the keys of a list rise strictly, the first above `n`. -/
def risingFrom {α : Type} (n : Nat) : List (Nat × α) → Bool
  | [] => true
  | (k, _) :: rest => n < k && risingFrom k rest

/-- The canonical form of a keyed list: keys strictly rising. -/
def rising {α : Type} : List (Nat × α) → Bool
  | [] => true
  | (k, _) :: rest => risingFrom k rest

/-- The value a name holds, if it is bound (10_state.md rule R22). -/
def State.read (s : State) (n : Nat) : Option Value := lookup n s.bindings

/-- A request completes: its result is bound to its name and the request index advances by 1
(10_state.md rules R22 and R27). -/
def State.complete (s : State) (n : Nat) (v : Value) : State :=
  { s with index := s.index + 1, bindings := bindName n v s.bindings }

/-- A request faults: no result, nothing else written, the index stays, and the fault record takes
the request index and the fault (60_exceptions.md rules R175 and R176; 10_state.md rule R27). A
record that is already there is never cleared or replaced. -/
def State.raise (s : State) (info : FaultInfo) : State :=
  { s with faultRecord := s.faultRecord.or (some { index := s.index, info := info }) }

/-- The fault codes (60_exceptions.md rule R171). -/
def faultCode : FaultInfo → Nat
  | .uncheckedStdRange _ => 1
  | .uncheckedExtRange _ => 2
  | .decodeRange _ _ _ => 3

/-- The line the host presents next, none when the list is at its end (10_state.md rule R27). -/
def State.fetch (s : State) : Option Frame := s.program[s.index]?

/-- A host program at its start: index 0, no bound names, an empty fault record (10_state.md rule
R27; 70_reset_and_hazards.md rule R191; 95_test_vectors.md section 3). -/
def AgentState.start (prog : List Frame) : AgentState :=
  { program := prog, index := 0, bindings := [], faultRecord := none }

/-- Start a host program of the agent at the port. Log 12. -/
def State.load (s : State) (prog : List Frame) : State :=
  { s with toAgentState := AgentState.start prog }

end Sys2Proof.Machine
end

