-- ==== Sys2Proof/Machine/Agents.lean ====
section
/-! DEFINITION. Several agents at the one request port (20_memory.md rule R55; 60_exceptions.md rule
R183). Each has a host program of its own, with its own index, names and fault record; `turns` is
their interleaving, and every list of turns is one. A fault or a refusal ends the host program it is
in (rules R176 and R173) and no other: the other agents' requests get the results they get alone. -/

namespace Sys2Proof.Machine

/-- The host program of an agent, whether it is at the port or not. -/
def State.agentState (s : State) (k : Nat) : Option AgentState :=
  if k = s.agent then some s.toAgentState else lookup k s.agents

/-- An agent joins, with a host program at its start (log 12). -/
def State.addAgent (s : State) (k : Nat) (prog : List Frame) : State :=
  if k = s.agent then s.load prog
  else { s with agents := bindName k (AgentState.start prog) s.agents }

/-- The next turn begins: the agent at the port leaves it and the agent whose turn it is takes it,
each with its host program as it stands. Where no turn is left the agent stays; a turn of an agent
that is not there is passed over (DESIGN CHOICE, log 15). -/
def State.yield (s : State) : State :=
  match s.turns with
  | [] => s
  | k :: rest =>
    match s.agentState k with
    | none => { s with turns := rest }
    | some h =>
      { toAgentState := h
        config := s.config
        agent := k
        agents := bindName s.agent s.toAgentState s.agents
        turns := rest }

/-- What the machine does with the outcome of a presented line. With no turn left it is the outcome.
Else the next turn begins: after a completed or recorded request from the state it left, and where
the program at the port has ended or its line is refused from the state as it was. -/
def State.turnOver (s : State) (o : Host.Outcome State Fault Refusal) :
    Host.Outcome State Fault Refusal :=
  match s.turns with
  | [] => o
  | _ :: _ =>
    match o with
    | .next t => .next t.yield
    | .fault _ => .next s.yield
    | .refused _ => .next s.yield

end Sys2Proof.Machine
end

