-- ==== Sys2Proof/Machine/Flags.lean ====
section
/-! DEFINITION. The flag bits of the code word (30_encoding.md rule R67) and its other fields
(10_state.md rule R23). -/

namespace Sys2Proof.Machine

/-- IDE = code[21]: the frame is extended (rule R67). -/
def ide (r : IdReg) : Bool := r.code.getLsbD ideShift

/-- RTR = code[20]: the frame is a remote frame (rule R67). -/
def rtr (r : IdReg) : Bool := r.code.getLsbD rtrShift

/-- SRR = code[22] (rule R67). No operation reads it (10_state.md rule R23). -/
def srr (r : IdReg) : Bool := r.code.getLsbD srrShift

/-- The DLC field, code[19:16]. No operation reads it (10_state.md rule R23). -/
def dlc (r : IdReg) : Nat := bits r.code 19 16

/-- The TIMESTAMP field, code[15:0]. No operation reads it (60_exceptions.md rule R181). -/
def timestamp (r : IdReg) : Nat := bits r.code 15 0

/-- The code word with its RTR bit set to `b` (rule R67). -/
def setRtr (code : Word) (b : Bool) : Word := (code &&& ~~~rtrMask) ||| (if b then rtrMask else 0)

end Sys2Proof.Machine
end

