-- ==== Sys2Proof/Machine/Operands.lean ====
section
/-! DEFINITION. The operand forms of a line (30_encoding.md rule R74), the typed reading of a slot
(rule R70), and presenting a request with none, one or two operands. -/

namespace Sys2Proof.Machine

/-- What the unwrap `vK.val` presents when vK holds `v`: the option's val as a StdId or an ExtId
(30_encoding.md rule R74). -/
def unwrapValue (n : Nat) (v : Value) : Except Refusal Value :=
  match v with
  | .optStd (some raw) => .ok (.stdId raw)
  | .optExt (some raw) => .ok (.extId raw)
  | .optStd none => .error (.absentValue n)
  | .optExt none => .error (.absentValue n)
  | .u16 _ => .error (.notAnOption n)
  | .u32 _ => .error (.notAnOption n)
  | .bool _ => .error (.notAnOption n)
  | .stdId _ => .error (.notAnOption n)
  | .extId _ => .error (.notAnOption n)
  | .id _ => .error (.notAnOption n)
  | .idReg _ => .error (.notAnOption n)
  | .ordering _ => .error (.notAnOption n)

/-- The value an operand presents, or the host's refusal of the line (10_state.md rule R22;
30_encoding.md rule R74). -/
def State.resolve (s : State) (o : Operand) : Except Refusal Value :=
  match o with
  | .lit v => .ok v
  | .name n =>
    match s.read n with
    | some v => .ok v
    | none => .error (.unboundName n)
  | .unwrap n =>
    match s.read n with
    | some v => unwrapValue n v
    | none => .error (.unboundName n)

/-- The values a line's operands present, in order; the first that presents none refuses it. -/
def State.resolveAll (s : State) : List Operand → Except Refusal (List Value)
  | [] => .ok []
  | o :: os =>
    match s.resolve o with
    | .error r => .error r
    | .ok v =>
      match s.resolveAll os with
      | .error r => .error r
      | .ok vs => .ok (v :: vs)

/-- A slot of type U16. -/
def asU16 : Value → Option Half
  | .u16 v => some v
  | _ => none

/-- A slot of type U32. -/
def asU32 : Value → Option Word
  | .u32 v => some v
  | _ => none

/-- A slot of type Bool. -/
def asBool : Value → Option Bool
  | .bool b => some b
  | _ => none

/-- A slot of type StdId, with its invariant (30_encoding.md rule R70). -/
def asStdId : Value → Option Half
  | .stdId raw => if raw.toNat ≤ stdMax then some raw else none
  | _ => none

/-- A slot of type ExtId, with its invariant (30_encoding.md rule R70). -/
def asExtId : Value → Option Word
  | .extId raw => if raw.toNat ≤ extMax then some raw else none
  | _ => none

/-- A slot of type Id, with its invariant (30_encoding.md rule R70). -/
def asId : Value → Option CanId
  | .id i => if i.ok then some i else none
  | _ => none

/-- A slot of type IdReg: any 64 bits (30_encoding.md rule R70). -/
def asIdReg : Value → Option IdReg
  | .idReg r => some r
  | _ => none

/-- The outcome of a request the block accepted: `Ok` completes it, `Fault` is recorded
(60_exceptions.md rule R170). -/
def State.answer (s : State) (d : Nat) (r : Except FaultInfo Value) :
    Host.Outcome State Fault Refusal :=
  match r with
  | .ok v => .next (s.complete d v)
  | .error info => .next (s.raise info)

/-- Present a request that has no operand. -/
def State.request0 (s : State) (d : Nat) (r : Except FaultInfo Value) :
    Host.Outcome State Fault Refusal :=
  match s.read d with
  | some _ => .refused (.nameAlreadyBound d)
  | none => s.answer d r

/-- Present a request with one operand: the host resolves it, the block checks its type
(30_encoding.md rule R70) and runs the operation. -/
def State.request1 {α : Type} (s : State) (d : Nat) (a : Operand) (slot : Value → Option α)
    (run : α → Except FaultInfo Value) : Host.Outcome State Fault Refusal :=
  match s.read d with
  | some _ => .refused (.nameAlreadyBound d)
  | none =>
    match s.resolve a with
    | .error r => .refused r
    | .ok v =>
      match slot v with
      | none => .refused .operandType
      | some x => s.answer d (run x)

/-- Present a request with two operands: the host resolves both, then the block checks both types
and runs the operation. -/
def State.request2 {α β : Type} (s : State) (d : Nat) (a b : Operand)
    (slotA : Value → Option α) (slotB : Value → Option β)
    (run : α → β → Except FaultInfo Value) : Host.Outcome State Fault Refusal :=
  match s.read d with
  | some _ => .refused (.nameAlreadyBound d)
  | none =>
    match s.resolve a with
    | .error r => .refused r
    | .ok va =>
      match s.resolve b with
      | .error r => .refused r
      | .ok vb =>
        match slotA va, slotB vb with
        | some x, some y => s.answer d (run x y)
        | _, _ => .refused .operandType

end Sys2Proof.Machine
end

