-- ==== Sys2Proof/Machine/Codec.lean ====
section
/-! DEFINITION. The IdReg codec: encoders, RTR, flag accessors and the decoder
(42_idreg_codec.md). -/

namespace Sys2Proof.Machine

/-- IDREG_NEW_STD (rule R130): a cleared code word, the identifier in id bits 28..18. -/
def newStd (raw : Half) : IdReg := { code := 0, id := raw.setWidth 32 <<< stdShift }

/-- IDREG_NEW_EXT (rule R131): IDE set, SRR as the parameter says, the identifier in id bits
28..0. -/
def newExt (srrOnExt : Bool) (raw : Word) : IdReg :=
  { code := ideMask ||| (if srrOnExt then srrMask else 0), id := raw <<< extShift }

/-- IDREG_WITH_RTR (rule R132): only the RTR bit changes. -/
def withRtr (r : IdReg) (b : Bool) : IdReg := { code := setRtr r.code b, id := r.id }

/-- The decoder (rule R140); none when the shifted identifier is out of range. -/
def toId (r : IdReg) : Option CanId :=
  if ide r then
    let raw := r.id >>> extShift
    if raw.toNat ≤ extMax then some (.extended raw) else none
  else
    let raw := r.id >>> stdShift
    if raw.toNat ≤ stdMax then some (.standard raw) else none

/-- The decoder with its fault (rule R140; 60_exceptions.md rule R171). `operand` names the operand
where the operation has two. -/
def decodeReg (operand : Option Slot) (r : IdReg) : Except FaultInfo CanId :=
  match toId r with
  | some i => .ok i
  | none => .error (.decodeRange r.code r.id operand)

/-- IDREG_NEW_STD, select 0x10 (rule R130). -/
def execIdregNewStd (d : Nat) (i : Operand) (s : State) : Host.Outcome State Fault Refusal :=
  s.request1 d i asStdId fun x => .ok (.idReg (newStd x))

/-- IDREG_NEW_EXT, select 0x11 (rule R131). -/
def execIdregNewExt (d : Nat) (e : Operand) (s : State) : Host.Outcome State Fault Refusal :=
  s.request1 d e asExtId fun x => .ok (.idReg (newExt s.config.srrOnExt x))

/-- IDREG_WITH_RTR, select 0x12 (rule R132). -/
def execIdregWithRtr (d : Nat) (r b : Operand) (s : State) : Host.Outcome State Fault Refusal :=
  s.request2 d r b asIdReg asBool fun x y => .ok (.idReg (withRtr x y))

/-- IDREG_IS_EXT, select 0x13 (rule R133). -/
def execIdregIsExt (d : Nat) (r : Operand) (s : State) : Host.Outcome State Fault Refusal :=
  s.request1 d r asIdReg fun x => .ok (.bool (ide x))

/-- IDREG_IS_STD, select 0x14 (rule R134). -/
def execIdregIsStd (d : Nat) (r : Operand) (s : State) : Host.Outcome State Fault Refusal :=
  s.request1 d r asIdReg fun x => .ok (.bool (!ide x))

/-- IDREG_RTR, select 0x15 (rule R135). -/
def execIdregRtr (d : Nat) (r : Operand) (s : State) : Host.Outcome State Fault Refusal :=
  s.request1 d r asIdReg fun x => .ok (.bool (rtr x))

/-- IDREG_TO_ID, select 0x16 (rule R140). -/
def execIdregToId (d : Nat) (r : Operand) (s : State) : Host.Outcome State Fault Refusal :=
  s.request1 d r asIdReg fun x => (decodeReg none x).map .id

end Sys2Proof.Machine
end

