-- ==== Sys2Proof/Machine/Identifiers.lean ====
section
/-! DEFINITION. The leaf identifier operations on StandardId and ExtendedId (40_identifiers.md). -/

namespace Sys2Proof.Machine

/-- STD_NEW (rule R100): the raw value if it is in range, else absent. -/
def stdNew (raw : Half) : Option Half := if raw.toNat ≤ stdMax then some raw else none

/-- STD_NEW_UNCHECKED (rule R101): out of range is the fault UncheckedStdRange. -/
def stdNewUnchecked (raw : Half) : Except FaultInfo Half :=
  if raw.toNat ≤ stdMax then .ok raw else .error (.uncheckedStdRange raw)

/-- EXT_NEW (rule R103): the raw value if it is in range, else absent. -/
def extNew (raw : Word) : Option Word := if raw.toNat ≤ extMax then some raw else none

/-- EXT_NEW_UNCHECKED (rule R104): out of range is the fault UncheckedExtRange. -/
def extNewUnchecked (raw : Word) : Except FaultInfo Word :=
  if raw.toNat ≤ extMax then .ok raw else .error (.uncheckedExtRange raw)

/-- The base id of an extended identifier, its bits 28..18 (rule R107; 30_encoding.md rule R66). -/
def baseId (e : Word) : Half := (e >>> baseShift).setWidth 16

/-- `StandardId::ZERO` (10_state.md rule R29). -/
def stdZero : Half := 0x000#16

/-- `StandardId::MAX` (10_state.md rule R29). -/
def stdMaxId : Half := 0x7FF#16

/-- `ExtendedId::ZERO` (10_state.md rule R29). -/
def extZero : Word := 0x00000000#32

/-- `ExtendedId::MAX` (10_state.md rule R29). -/
def extMaxId : Word := 0x1FFFFFFF#32

/-- STD_NEW, select 0x01 (rule R100; 60_exceptions.md rule R172). -/
def execStdNew (d : Nat) (raw : Operand) (s : State) : Host.Outcome State Fault Refusal :=
  s.request1 d raw asU16 fun x => .ok (.optStd (stdNew x))

/-- STD_NEW_UNCHECKED, select 0x02 (rule R101). -/
def execStdNewUnchecked (d : Nat) (raw : Operand) (s : State) :
    Host.Outcome State Fault Refusal :=
  s.request1 d raw asU16 fun x => (stdNewUnchecked x).map .stdId

/-- STD_AS_RAW, select 0x03 (rule R102). -/
def execStdAsRaw (d : Nat) (i : Operand) (s : State) : Host.Outcome State Fault Refusal :=
  s.request1 d i asStdId fun x => .ok (.u16 x)

/-- EXT_NEW, select 0x04 (rule R103; 60_exceptions.md rule R172). -/
def execExtNew (d : Nat) (raw : Operand) (s : State) : Host.Outcome State Fault Refusal :=
  s.request1 d raw asU32 fun x => .ok (.optExt (extNew x))

/-- EXT_NEW_UNCHECKED, select 0x05 (rule R104). -/
def execExtNewUnchecked (d : Nat) (raw : Operand) (s : State) :
    Host.Outcome State Fault Refusal :=
  s.request1 d raw asU32 fun x => (extNewUnchecked x).map .extId

/-- EXT_AS_RAW, select 0x06 (rule R105). -/
def execExtAsRaw (d : Nat) (e : Operand) (s : State) : Host.Outcome State Fault Refusal :=
  s.request1 d e asExtId fun x => .ok (.u32 x)

/-- EXT_STANDARD_ID, select 0x07 (rule R107). -/
def execExtStandardId (d : Nat) (e : Operand) (s : State) : Host.Outcome State Fault Refusal :=
  s.request1 d e asExtId fun x => .ok (.stdId (baseId x))

end Sys2Proof.Machine
end

