-- ==== Sys2Proof/Machine/Arbitration.lean ====
section
/-! DEFINITION. The arbitration-priority comparator and equality (43_arbitration.md). -/

namespace Sys2Proof

/-- `a > b`, read by the host off one result (rule R153). -/
def ArbOrder.isGt (o : ArbOrder) : Bool := o == .greater

/-- `a < b` (rule R153). -/
def ArbOrder.isLt (o : ArbOrder) : Bool := o == .less

/-- `a >= b` (rule R153). -/
def ArbOrder.isGe (o : ArbOrder) : Bool := o != .less

/-- `a <= b` (rule R153). -/
def ArbOrder.isLe (o : ArbOrder) : Bool := o != .greater

/-- The reverse of an Ordering (rule R154). -/
def ArbOrder.reverse : ArbOrder → ArbOrder
  | .less => .greater
  | .equal => .equal
  | .greater => .less

end Sys2Proof

namespace Sys2Proof.Machine

/-- `InvCmp` (rule R150): the smaller number is the greater frame. -/
def invCmp (p q : Nat) : ArbOrder := if p < q then .greater else if p = q then .equal else .less

/-- `RtrTie` (rules R150 and R151): a data frame beats a remote frame. -/
def rtrTie (ra rb : Bool) : ArbOrder :=
  match ra, rb with
  | false, true => .greater
  | true, false => .less
  | false, false => .equal
  | true, true => .equal

/-- "c then t" (rule R150). -/
def thenCmp (c t : ArbOrder) : ArbOrder :=
  match c with
  | .equal => t
  | .less => .less
  | .greater => .greater

/-- The comparison of two decoded identifiers with their RTR bits (rules R150 to R152). -/
def compareIds (ia ib : CanId) (ra rb : Bool) : ArbOrder :=
  match ia, ib with
  | .standard x, .standard y => thenCmp (invCmp x.toNat y.toNat) (rtrTie ra rb)
  | .extended x, .extended y => thenCmp (invCmp x.toNat y.toNat) (rtrTie ra rb)
  | .standard x, .extended y => thenCmp (invCmp x.toNat (baseId y).toNat) .greater
  | .extended x, .standard y => thenCmp (invCmp (baseId x).toNat y.toNat) .less

/-- IDREG_CMP (rule R150): operand a is decoded before operand b (60_exceptions.md rule R174). -/
def cmpReg (a b : IdReg) : Except FaultInfo ArbOrder :=
  match decodeReg (some .a) a with
  | .error f => .error f
  | .ok ia =>
    match decodeReg (some .b) b with
    | .error f => .error f
    | .ok ib => .ok (compareIds ia ib (rtr a) (rtr b))

/-- IDREG_EQ (rule R157): both words are equal. -/
def eqReg (a b : IdReg) : Bool := a.code == b.code && a.id == b.id

/-- The priority key P (rule R155): the fields base id (from bit 20 up), IDE (bit 19), extended low
bits (bits 18..1, zero for a standard operand) and RTR (bit 0). The smaller key is the higher
priority. -/
def priorityKey (r : IdReg) : Nat :=
  let base := r.id.toNat / 2 ^ 18
  let low := if ide r then r.id.toNat % 2 ^ 18 else 0
  base * 2 ^ 20 + (ide r).toNat * 2 ^ 19 + low * 2 + (rtr r).toNat

/-- IDREG_CMP, select 0x17 (rule R150). -/
def execIdregCmp (d : Nat) (a b : Operand) (s : State) : Host.Outcome State Fault Refusal :=
  s.request2 d a b asIdReg asIdReg fun x y => (cmpReg x y).map .ordering

/-- IDREG_EQ, select 0x18 (rule R157). -/
def execIdregEq (d : Nat) (a b : Operand) (s : State) : Host.Outcome State Fault Refusal :=
  s.request2 d a b asIdReg asIdReg fun x y => .ok (.bool (eqReg x y))

end Sys2Proof.Machine
end

