-- ==== Sys2Proof/Machine/IdUnion.lean ====
section
/-! DEFINITION. The tagged identifier operations (41_id_union.md). -/

namespace Sys2Proof.Machine

/-- ID_FROM_STD (rule R120): tag 0 and the zero-extended standard identifier. -/
def idFromStd (raw : Half) : CanId := .standard (raw.setWidth 32)

/-- ID_FROM_EXT (rule R121): tag 1 and the extended identifier. -/
def idFromExt (raw : Word) : CanId := .extended raw

/-- ID_DEFAULT (rule R122; 10_state.md rule R30): Standard(0). -/
def idDefault : CanId := .standard 0#32

/-- ID_AS_RAW (rule R123): the flat value; the tag is dropped. -/
def idAsRaw (i : CanId) : Word :=
  match i with
  | .standard v => v
  | .extended v => v

/-- ID_FROM_STD, select 0x08 (rule R120). -/
def execIdFromStd (d : Nat) (i : Operand) (s : State) : Host.Outcome State Fault Refusal :=
  s.request1 d i asStdId fun x => .ok (.id (idFromStd x))

/-- ID_FROM_EXT, select 0x09 (rule R121). -/
def execIdFromExt (d : Nat) (e : Operand) (s : State) : Host.Outcome State Fault Refusal :=
  s.request1 d e asExtId fun x => .ok (.id (idFromExt x))

/-- ID_DEFAULT, select 0x0A (rule R122). -/
def execIdDefault (d : Nat) (s : State) : Host.Outcome State Fault Refusal :=
  s.request0 d (.ok (.id idDefault))

/-- ID_AS_RAW, select 0x0B (rule R123). -/
def execIdAsRaw (d : Nat) (i : Operand) (s : State) : Host.Outcome State Fault Refusal :=
  s.request1 d i asId fun x => .ok (.u32 (idAsRaw x))

end Sys2Proof.Machine
end

