-- ==== Sys2Proof/Machine/Dispatch.lean ====
section
/-! DEFINITION. One arm per row of opcode_table.json. -/

namespace Sys2Proof.Machine

def exec (i : Instr) (s : State) : Host.Outcome State Fault Refusal :=
  match i with
  -- 40_identifiers.md
  | .stdNew d raw => Sys2Proof.Machine.execStdNew d raw s
  | .stdNewUnchecked d raw => Sys2Proof.Machine.execStdNewUnchecked d raw s
  | .stdAsRaw d a => Sys2Proof.Machine.execStdAsRaw d a s
  | .extNew d raw => Sys2Proof.Machine.execExtNew d raw s
  | .extNewUnchecked d raw => Sys2Proof.Machine.execExtNewUnchecked d raw s
  | .extAsRaw d e => Sys2Proof.Machine.execExtAsRaw d e s
  | .extStandardId d e => Sys2Proof.Machine.execExtStandardId d e s
  -- 41_id_union.md
  | .idFromStd d a => Sys2Proof.Machine.execIdFromStd d a s
  | .idFromExt d e => Sys2Proof.Machine.execIdFromExt d e s
  | .idDefault d => Sys2Proof.Machine.execIdDefault d s
  | .idAsRaw d a => Sys2Proof.Machine.execIdAsRaw d a s
  -- 42_idreg_codec.md
  | .idregNewStd d a => Sys2Proof.Machine.execIdregNewStd d a s
  | .idregNewExt d e => Sys2Proof.Machine.execIdregNewExt d e s
  | .idregWithRtr d r b => Sys2Proof.Machine.execIdregWithRtr d r b s
  | .idregIsExt d r => Sys2Proof.Machine.execIdregIsExt d r s
  | .idregIsStd d r => Sys2Proof.Machine.execIdregIsStd d r s
  | .idregRtr d r => Sys2Proof.Machine.execIdregRtr d r s
  | .idregToId d r => Sys2Proof.Machine.execIdregToId d r s
  -- 43_arbitration.md
  | .idregCmp d a b => Sys2Proof.Machine.execIdregCmp d a b s
  | .idregEq d a b => Sys2Proof.Machine.execIdregEq d a b s

end Sys2Proof.Machine
end

