-- ==== Sys2Proof/Machine/Refuse.lean ====
section
/-! DEFINITION. Why a line that decodes to no instruction is refused. -/

namespace Sys2Proof.Machine

/-- The block's refusal of a line that does not decode (60_exceptions.md rule R173). -/
def decodeRefusal : DecodeError → Refusal
  | .reservedOp => .reservedOp
  | .operandType => .operandType

/-- The refusal of a line that does not decode. The host's own refusals come first, since such a
line is refused before a request is presented (30_encoding.md rule R74; DESIGN CHOICE, log 6). -/
def State.lineRefusal (s : State) (f : Frame) (e : DecodeError) : Refusal :=
  match s.read f.dst with
  | some _ => .nameAlreadyBound f.dst
  | none =>
    match s.resolveAll f.slots with
    | .error r => r
    | .ok _ => decodeRefusal e

end Sys2Proof.Machine
end

