-- ==== Sys2Proof/Machine/Step.lean ====
section
/-! DEFINITION. One step: the agent at the port presents its next request (10_state.md rule R27). -/

namespace Sys2Proof.Machine

/-- The agent at the port presents the next request of its host program. After a fault the program
has ended and no request is presented (60_exceptions.md rule R176). At the end of the list there is
no request, and nothing happens (log 3). -/
def State.presentNext (s : State) : Host.Outcome State Fault Refusal :=
  match s.faultRecord with
  | some r => .fault (.programFaulted r)
  | none =>
    match s.fetch with
    | none => .next s
    | some f =>
      match decode f with
      | .ok i => exec i s
      | .error e => .refused (s.lineRefusal f e)

/-- One step: the agent at the port presents its next request, and then the next turn begins
(20_memory.md rule R55; log 15). -/
def step (s : State) : Host.Outcome State Fault Refusal := s.turnOver s.presentNext

/-- The state in which the very next step presents the request whose bits are `w` below `nbits`:
a host program of that one request, just loaded at the port (log 12). Every bit from `nbits` up is
zero, so a request with fewer bits than its row's slots has zeros in the rest of them, and is not
one with too few slots (DESIGN CHOICE, log 11). -/
def State.withFetchWord (s : State) (nbits w : Nat) : State :=
  s.load [frameOfWord 0 (w % 2 ^ nbits)]

end Sys2Proof.Machine
end

