-- ==== Sys2Proof/Machine/Pseudo.lean ====
section
/-! DEFINITION. The pseudo-operations of a host program (30_encoding.md rule R75). -/

namespace Sys2Proof.Machine

/-- A line of a host program before expansion: a request or a pseudo-operation. -/
inductive Line where
  | request (f : Frame)
  | frameStd (dst : Nat) (s r : Operand)
  | frameExt (dst : Nat) (e r : Operand)
  | stdZero (dst : Nat)
  | stdMax (dst : Nat)
  | extZero (dst : Nat)
  | extMax (dst : Nat)
  deriving DecidableEq, Repr

/-- The requests a line stands for, with `t` the fresh name vT (rule R75). -/
def Line.expand (t : Nat) : Line → List Frame
  | .request f => [f]
  | .frameStd d s r => [encode (.idregNewStd t s), encode (.idregWithRtr d (.name t) r)]
  | .frameExt d e r => [encode (.idregNewExt t e), encode (.idregWithRtr d (.name t) r)]
  | .stdZero d => [encode (.stdNewUnchecked d (.lit (.u16 Machine.stdZero)))]
  | .stdMax d => [encode (.stdNewUnchecked d (.lit (.u16 stdMaxId)))]
  | .extZero d => [encode (.extNewUnchecked d (.lit (.u32 Machine.extZero)))]
  | .extMax d => [encode (.extNewUnchecked d (.lit (.u32 extMaxId)))]

/-- The requests of a program: its lines expanded in order, each with a fresh name of its own from
`t` up. -/
def expandLines (t : Nat) : List Line → List Frame
  | [] => []
  | l :: ls => l.expand t ++ expandLines (t + 1) ls

/-- The name an operand reads, if it reads one. -/
def operandNames : Operand → List Nat
  | .lit _ => []
  | .name n => [n]
  | .unwrap n => [n]

/-- The names a line writes or reads. -/
def lineNames : Line → List Nat
  | .request f => f.dst :: f.slots.flatMap operandNames
  | .frameStd d s r => d :: (operandNames s ++ operandNames r)
  | .frameExt d e r => d :: (operandNames e ++ operandNames r)
  | .stdZero d => [d]
  | .stdMax d => [d]
  | .extZero d => [d]
  | .extMax d => [d]

/-- A name above every name of a program, so that it and all above it are fresh (rule R75). -/
def freshName (ls : List Line) : Nat :=
  (ls.flatMap lineNames).foldr (fun n m => max (n + 1) m) 0

/-- The requests of a program with its pseudo-operations expanded (rule R75). -/
def expandProgram (ls : List Line) : List Frame := expandLines (freshName ls) ls

end Sys2Proof.Machine
end

