-- ==== Sys2Proof/Machine/Assembler.lean ====
section
/-! DEFINITION. The assembly text of a host program (30_encoding.md rules R74 and R75). What the
rules leave open of the text (white space, letter case of digits, what a line of another form is) is
a DESIGN CHOICE, log 17. -/

namespace Sys2Proof

/-- The mnemonic of an operation (30_encoding.md rule R63). -/
def Op.mnemonic : Op → String
  | .stdNew => "STD_NEW"
  | .stdNewUnchecked => "STD_NEW_UNCHECKED"
  | .stdAsRaw => "STD_AS_RAW"
  | .extNew => "EXT_NEW"
  | .extNewUnchecked => "EXT_NEW_UNCHECKED"
  | .extAsRaw => "EXT_AS_RAW"
  | .extStandardId => "EXT_STANDARD_ID"
  | .idFromStd => "ID_FROM_STD"
  | .idFromExt => "ID_FROM_EXT"
  | .idDefault => "ID_DEFAULT"
  | .idAsRaw => "ID_AS_RAW"
  | .idregNewStd => "IDREG_NEW_STD"
  | .idregNewExt => "IDREG_NEW_EXT"
  | .idregWithRtr => "IDREG_WITH_RTR"
  | .idregIsExt => "IDREG_IS_EXT"
  | .idregIsStd => "IDREG_IS_STD"
  | .idregRtr => "IDREG_RTR"
  | .idregToId => "IDREG_TO_ID"
  | .idregCmp => "IDREG_CMP"
  | .idregEq => "IDREG_EQ"

end Sys2Proof

namespace Sys2Proof.Machine

/-- Why a text is no host program. One line that is not of the form of rules R74 and R75 rejects the
whole text (DESIGN CHOICE, log 17). -/
inductive AsmError where
  | badCharacter
  | badLine
  | unknownMnemonic
  | badOperand
  | operandCount
  deriving DecidableEq, Repr

/-- The tokens of a line. -/
inductive Token where
  | word (cs : List Char)
  | hash
  | equals
  | comma
  | lparen
  | rparen
  deriving DecidableEq, Repr

/-- The tokens a finished word adds. -/
def flushWord (acc : List Char) : List Token := if acc.isEmpty then [] else [.word acc.reverse]

/-- The tokens of a line's characters; `acc` holds the word being read, last character first. The
text after `;` is a comment (rule R74). -/
def lexFrom (acc : List Char) : List Char → Except AsmError (List Token)
  | [] => .ok (flushWord acc)
  | c :: cs =>
    let punct (t : Token) : Except AsmError (List Token) :=
      (lexFrom [] cs).map fun ts => flushWord acc ++ t :: ts
    if c = ';' then .ok (flushWord acc)
    else if c = '#' then punct .hash
    else if c = '=' then punct .equals
    else if c = ',' then punct .comma
    else if c = '(' then punct .lparen
    else if c = ')' then punct .rparen
    else if c = ' ' || c = '\t' then (lexFrom [] cs).map fun ts => flushWord acc ++ ts
    else if c.isAlphanum || c = '_' || c = '.' then lexFrom (c :: acc) cs
    else .error .badCharacter

/-- The value of a digit in a base of at most 16. -/
def digitValue (base : Nat) (c : Char) : Option Nat :=
  let n := c.toNat
  let v :=
    if 48 ≤ n && n ≤ 57 then n - 48
    else if 97 ≤ n && n ≤ 102 then n - 87
    else if 65 ≤ n && n ≤ 70 then n - 55
    else 16
  if v < base then some v else none

/-- The number of a list of digits, most significant first. Leading zeros do not change it (DESIGN
CHOICE, log 17). -/
def digitsValue (base : Nat) (acc : Nat) : List Char → Option Nat
  | [] => some acc
  | c :: cs =>
    match digitValue base c with
    | some d => digitsValue base (acc * base + d) cs
    | none => none

/-- The number after `#`: `0x...` or decimal (rule R74). -/
def numberOf : List Char → Option Nat
  | '0' :: 'x' :: d :: ds => digitsValue 16 0 (d :: ds)
  | d :: ds => digitsValue 10 0 (d :: ds)
  | [] => none

/-- The name `vN` (rule R74). N is read as a decimal number, so `v01` is a spelling of the name v1;
rule R74 does not say what it is (DESIGN CHOICE, log 17). -/
def nameOf : List Char → Option Nat
  | 'v' :: d :: ds => digitsValue 10 0 (d :: ds)
  | _ => none

/-- The name of an unwrap `vK.val` (rule R74): the word without its last four characters. -/
def unwrapOf (cs : List Char) : Option Nat :=
  let n := cs.length - 4
  if cs.drop n = ['.', 'v', 'a', 'l'] then nameOf (cs.take n) else none

/-- An operand of the text. A number has no type until its slot gives it one. -/
inductive AsmOperand where
  | number (n : Nat)
  | operand (o : Operand)
  deriving DecidableEq, Repr

/-- The operand of a bare word: a name or an unwrap. -/
def wordOperand (w : List Char) : Except AsmError AsmOperand :=
  match nameOf w with
  | some n => .ok (.operand (.name n))
  | none =>
    match unwrapOf w with
    | some n => .ok (.operand (.unwrap n))
    | none => .error .badOperand

/-- The operand of a word after `#`: `#true`, `#false` or a number. -/
def hashOperand (w : List Char) : Except AsmError AsmOperand :=
  if w = ['t', 'r', 'u', 'e'] then .ok (.operand (.lit (.bool true)))
  else if w = ['f', 'a', 'l', 's', 'e'] then .ok (.operand (.lit (.bool false)))
  else
    match numberOf w with
    | some n => .ok (.number n)
    | none => .error .badOperand

/-- `std(#x)` and `ext(#x)`, allowed only where x meets the invariant (rule R74). -/
def idLiteral (kind x : List Char) : Except AsmError AsmOperand :=
  match numberOf x with
  | none => .error .badOperand
  | some n =>
    if kind = ['s', 't', 'd'] && n ≤ stdMax then .ok (.operand (.lit (.stdId (BitVec.ofNat 16 n))))
    else if kind = ['e', 'x', 't'] && n ≤ extMax then
      .ok (.operand (.lit (.extId (BitVec.ofNat 32 n))))
    else .error .badOperand

/-- `reg(#code, #id)` (rule R74). -/
def regLiteral (code id : List Char) : Except AsmError AsmOperand :=
  match numberOf code, numberOf id with
  | some c, some i =>
    if c < 2 ^ 32 && i < 2 ^ 32 then
      .ok (.operand (.lit (.idReg { code := BitVec.ofNat 32 c, id := BitVec.ofNat 32 i })))
    else .error .badOperand
  | _, _ => .error .badOperand

/-- The tokens of the operands, cut at the commas outside parentheses; `depth` counts the open
parentheses and `cur` holds the current operand, last token first. -/
def splitOperands (depth : Nat) (cur : List Token) : List Token → List (List Token)
  | [] => [cur.reverse]
  | .comma :: ts =>
    if depth = 0 then cur.reverse :: splitOperands 0 [] ts
    else splitOperands depth (.comma :: cur) ts
  | .lparen :: ts => splitOperands (depth + 1) (.lparen :: cur) ts
  | .rparen :: ts => splitOperands (depth - 1) (.rparen :: cur) ts
  | .word w :: ts => splitOperands depth (.word w :: cur) ts
  | .hash :: ts => splitOperands depth (.hash :: cur) ts
  | .equals :: ts => splitOperands depth (.equals :: cur) ts

/-- The operand of its tokens (rule R74). -/
def operandOf : List Token → Except AsmError AsmOperand
  | [.word w] => wordOperand w
  | [.hash, .word w] => hashOperand w
  | [.word k, .lparen, .hash, .word x, .rparen] => idLiteral k x
  | [.word k, .lparen, .hash, .word c, .comma, .hash, .word i, .rparen] =>
    if k = ['r', 'e', 'g'] then regLiteral c i else .error .badOperand
  | _ => .error .badOperand

/-- The operands of a list of operand tokens. -/
def operandsOf : List (List Token) → Except AsmError (List AsmOperand)
  | [] => .ok []
  | ts :: rest =>
    match operandOf ts with
    | .error e => .error e
    | .ok o => (operandsOf rest).map (o :: ·)

/-- An operand of the text in a slot of a row: a number takes the slot's type U16 or U32 and must
fit it (rule R74). -/
def typeOperand (t : ValueType) : AsmOperand → Except AsmError Operand
  | .operand o => .ok o
  | .number n =>
    match t with
    | .u16 => if n < 2 ^ 16 then .ok (.lit (.u16 (BitVec.ofNat 16 n))) else .error .badOperand
    | .u32 => if n < 2 ^ 32 then .ok (.lit (.u32 (BitVec.ofNat 32 n))) else .error .badOperand
    | _ => .error .badOperand

/-- The operands of a row's slots, one each. Rule R74 does not say what a text line with too few or
too many operands is. Here the text is rejected with `operandCount` and no program comes of it
(DESIGN CHOICE, log 17), while a request presented with a wrong number of slots is refused as
OperandType (rule R70; `decode`, `respond`). -/
def typeOperands : List ValueType → List AsmOperand → Except AsmError (List Operand)
  | [], [] => .ok []
  | t :: ts, o :: os =>
    match typeOperand t o with
    | .error e => .error e
    | .ok x => (typeOperands ts os).map (x :: ·)
  | _, _ => .error .operandCount

/-- Every operation, in the order of opcode_table.json. -/
def allOps : List Op :=
  [.stdNew, .stdNewUnchecked, .stdAsRaw, .extNew, .extNewUnchecked, .extAsRaw, .extStandardId,
   .idFromStd, .idFromExt, .idDefault, .idAsRaw, .idregNewStd, .idregNewExt, .idregWithRtr,
   .idregIsExt, .idregIsStd, .idregRtr, .idregToId, .idregCmp, .idregEq]

/-- The operation a mnemonic names. -/
def opOfMnemonic (m : List Char) : Option Op := allOps.find? fun op => op.mnemonic.toList = m

/-- The line of a pseudo-operation (rule R75), if the mnemonic names one. -/
def pseudoOf (d : Nat) (m : List Char) (os : List AsmOperand) : Except AsmError Line :=
  if m = "FRAME_STD".toList then
    match os with
    | [.operand s, .operand r] => .ok (.frameStd d s r)
    | [_, _] => .error .badOperand
    | _ => .error .operandCount
  else if m = "FRAME_EXT".toList then
    match os with
    | [.operand e, .operand r] => .ok (.frameExt d e r)
    | [_, _] => .error .badOperand
    | _ => .error .operandCount
  else if !os.isEmpty then .error .unknownMnemonic
  else if m = "STD_ZERO".toList then .ok (.stdZero d)
  else if m = "STD_MAX".toList then .ok (.stdMax d)
  else if m = "EXT_ZERO".toList then .ok (.extZero d)
  else if m = "EXT_MAX".toList then .ok (.extMax d)
  else .error .unknownMnemonic

/-- The line `vN = MNEMONIC operands` (rules R74 and R75). -/
def lineOf (d : Nat) (m : List Char) (os : List AsmOperand) : Except AsmError Line :=
  match opOfMnemonic m with
  | some op =>
    (typeOperands op.slotTypes os).map fun xs =>
      .request { dst := d, select := op.select, slots := xs }
  | none => pseudoOf d m os

/-- One line of text; none for a line that is blank or only a comment. -/
def parseLine (text : List Char) : Except AsmError (Option Line) :=
  match lexFrom [] text with
  | .error e => .error e
  | .ok [] => .ok none
  | .ok (.word v :: .equals :: .word m :: rest) =>
    match nameOf v with
    | none => .error .badLine
    | some d =>
      match operandsOf (if rest.isEmpty then [] else splitOperands 0 [] rest) with
      | .error e => .error e
      | .ok os => (lineOf d m os).map some
  | .ok _ => .error .badLine

/-- The lines of a text, one request each (rule R74). -/
def parseLines : List String → Except AsmError (List Line)
  | [] => .ok []
  | t :: ts =>
    match parseLine t.toList with
    | .error e => .error e
    | .ok none => parseLines ts
    | .ok (some l) => (parseLines ts).map (l :: ·)

/-- The requests of a text, its pseudo-operations expanded (rules R74 and R75). -/
def assemble (text : List String) : Except AsmError (List Frame) :=
  (parseLines text).map expandProgram

end Sys2Proof.Machine
end

