-- ==== Sys2Proof/Machine/Block.lean ====
section
/-! DEFINITION. The block's port: one request in, one response out (30_encoding.md rules R62, R69
and R70; 60_exceptions.md rules R170, R173 and R174). It is stated without the host program; that
`step` agrees with it is a statement of Certificates/Slice0/Obligations.lean. -/

namespace Sys2Proof.Machine

/-- The refusal reasons of the block (60_exceptions.md rule R173). -/
inductive RefusedReason where
  | reservedOp
  | operandType
  deriving DecidableEq, Repr

/-- A response is exactly one of three things (30_encoding.md rule R62). -/
inductive Response where
  | ok (result : Value)
  | fault (info : FaultInfo)
  | refused (reason : RefusedReason)
  deriving DecidableEq, Repr

/-- The response of an operation that the block accepted. -/
def Response.ofResult : Except FaultInfo Value → Response
  | .ok v => .ok v
  | .error info => .fault info

/-- Whether the slots are those of a row: as many, of its types, each meeting its invariant
(30_encoding.md rule R70). -/
def slotsAccepted : List ValueType → List Value → Bool
  | [], [] => true
  | t :: ts, v :: vs => v.type == t && v.ok && slotsAccepted ts vs
  | _, _ => false

/-- An operation with no slot. -/
def run0 (r : Except FaultInfo Value) : List Value → Response
  | [] => .ofResult r
  | _ :: _ => .refused .operandType

/-- An operation with one slot. -/
def run1 {α : Type} (slot : Value → Option α) (run : α → Except FaultInfo Value)
    (vs : List Value) : Response :=
  match vs with
  | [v] =>
    match slot v with
    | some x => .ofResult (run x)
    | none => .refused .operandType
  | _ => .refused .operandType

/-- An operation with two slots. -/
def run2 {α β : Type} (slotA : Value → Option α) (slotB : Value → Option β)
    (run : α → β → Except FaultInfo Value) (vs : List Value) : Response :=
  match vs with
  | [v, w] =>
    match slotA v, slotB w with
    | some x, some y => .ofResult (run x y)
    | _, _ => .refused .operandType
  | _ => .refused .operandType

/-- The operation on its slots (30_encoding.md rule R63). -/
def runOp (c : Config) (op : Op) : List Value → Response :=
  match op with
  | .stdNew => run1 asU16 fun x => .ok (.optStd (stdNew x))
  | .stdNewUnchecked => run1 asU16 fun x => (stdNewUnchecked x).map .stdId
  | .stdAsRaw => run1 asStdId fun x => .ok (.u16 x)
  | .extNew => run1 asU32 fun x => .ok (.optExt (extNew x))
  | .extNewUnchecked => run1 asU32 fun x => (extNewUnchecked x).map .extId
  | .extAsRaw => run1 asExtId fun x => .ok (.u32 x)
  | .extStandardId => run1 asExtId fun x => .ok (.stdId (baseId x))
  | .idFromStd => run1 asStdId fun x => .ok (.id (idFromStd x))
  | .idFromExt => run1 asExtId fun x => .ok (.id (idFromExt x))
  | .idDefault => run0 (.ok (.id idDefault))
  | .idAsRaw => run1 asId fun x => .ok (.u32 (idAsRaw x))
  | .idregNewStd => run1 asStdId fun x => .ok (.idReg (newStd x))
  | .idregNewExt => run1 asExtId fun x => .ok (.idReg (newExt c.srrOnExt x))
  | .idregWithRtr => run2 asIdReg asBool fun x y => .ok (.idReg (withRtr x y))
  | .idregIsExt => run1 asIdReg fun x => .ok (.bool (ide x))
  | .idregIsStd => run1 asIdReg fun x => .ok (.bool (!ide x))
  | .idregRtr => run1 asIdReg fun x => .ok (.bool (rtr x))
  | .idregToId => run1 asIdReg fun x => (decodeReg none x).map .id
  | .idregCmp => run2 asIdReg asIdReg fun x y => (cmpReg x y).map .ordering
  | .idregEq => run2 asIdReg asIdReg fun x y => .ok (.bool (eqReg x y))

/-- The response to a request: ReservedOp, then OperandType, then the operation
(60_exceptions.md rule R174). It depends on nothing but the build parameter, the select and the
slots (10_state.md rule R20). -/
def respond (c : Config) (sel : Select) (slots : List Value) : Response :=
  match Op.ofSelect sel with
  | none => .refused .reservedOp
  | some op => if slotsAccepted op.slotTypes slots then runOp c op slots else .refused .operandType

/-- The host presents one line: it refuses a bound result name or an operand with no value, else it
presents the resolved request and takes the response (10_state.md rules R22 and R27;
30_encoding.md rule R74; 60_exceptions.md rules R170 and R175). -/
def State.present (s : State) (f : Frame) : Host.Outcome State Fault Refusal :=
  match s.read f.dst with
  | some _ => .refused (.nameAlreadyBound f.dst)
  | none =>
    match s.resolveAll f.slots with
    | .error r => .refused r
    | .ok vs =>
      match respond s.config f.select vs with
      | .ok v => .next (s.complete f.dst v)
      | .fault info => .next (s.raise info)
      | .refused .reservedOp => .refused .reservedOp
      | .refused .operandType => .refused .operandType

end Sys2Proof.Machine
end

