-- ==== Sys2Proof/Machine/Bytes.lean ====
section
/-! DEFINITION. Serialising one 32-bit word to bytes (20_memory.md rule R51). The byte order is the
OPEN parameter WORD_BYTE_ORDER; no address and no adjacency of the two words of an IdReg is assumed
(rule R54; 91_not_in_source.md N1). No step uses this. -/

namespace Sys2Proof.Machine

/-- The byte of a word that holds bits 8k+7..8k. -/
def byteOf (w : Word) (k : Nat) : Byte := (w >>> (8 * k)).setWidth 8

/-- The four bytes of a word in a byte order, the first in the list first. -/
def wordToBytes (o : ByteOrder) (w : Word) : List Byte :=
  match o with
  | .little => [byteOf w 0, byteOf w 1, byteOf w 2, byteOf w 3]
  | .big => [byteOf w 3, byteOf w 2, byteOf w 1, byteOf w 0]

/-- The word of four bytes in a byte order; none for any other number of bytes. -/
def wordOfBytes (o : ByteOrder) (bs : List Byte) : Option Word :=
  match bs with
  | [p, q, r, s] =>
    match o with
    | .little => some (s ++ r ++ q ++ p)
    | .big => some (p ++ q ++ r ++ s)
  | _ => none

/-- The bytes of a word in the order the platform has (log 9). -/
def serialiseWord (w : Word) : List Byte := wordToBytes Config.wordByteOrder w

end Sys2Proof.Machine
end

