-- ==== Sys2Proof/Machine/Wire.lean ====
section
/-! DEFINITION. The wire-level reading of the order (43_arbitration.md rule R160), which the spec
calls informative and takes from general knowledge. No computation of the block rests on it.
PRESUMED, log 14. -/

namespace Sys2Proof.Machine

/-- Bits hi..0 of a number, hi = n - 1 first; true is 1, recessive. -/
def msbFirst (w : Nat) : Nat → List Bool
  | 0 => []
  | n + 1 => w.testBit n :: msbFirst w n

/-- The arbitration bits of a frame in the order they are sent (rule R160). -/
def wireBits (i : CanId) (remote : Bool) : List Bool :=
  match i with
  | .standard x => msbFirst x.toNat 11 ++ [remote, false]
  | .extended y => msbFirst (baseId y).toNat 11 ++ [true, true] ++ msbFirst y.toNat 18 ++ [remote]

/-- Lexicographic comparison: the first differing bit decides and 0 (dominant) wins (rule R160). -/
def wireCmp : List Bool → List Bool → ArbOrder
  | p :: ps, q :: qs =>
    match p, q with
    | false, true => .greater
    | true, false => .less
    | false, false => wireCmp ps qs
    | true, true => wireCmp ps qs
  | [], _ => .equal
  | _ :: _, [] => .equal

end Sys2Proof.Machine
end

