-- ==== Sys2Proof/Safety.lean ====
section
/-! DEFINITION. What counts as a safe run: good states (60_exceptions.md rule R176), encoder-produced
values (10_state.md rule R26) and the invariant of a host program. -/

namespace Sys2Proof.Machine

/-- A good state: no request of any agent has faulted (60_exceptions.md rule R176). -/
def State.good (s : State) : Bool :=
  s.faultRecord.isNone && s.agents.all fun p => p.2.faultRecord.isNone

/-- The host program at the port is at its end, with no fault. -/
def State.finished (s : State) : Bool := s.faultRecord.isNone && s.fetch.isNone

/-- A machine with one agent, which has the given host program. -/
def AgentState.alone (h : AgentState) (c : Config) : State :=
  { toAgentState := h, config := c, agent := 0, agents := [], turns := [] }

/-- The host program after one step alone: as it was where it has ended or its line is refused. -/
def AgentState.advance (c : Config) (h : AgentState) : AgentState :=
  match step (h.alone c) with
  | .next t => t.toAgentState
  | .fault _ => h
  | .refused _ => h

/-- The agents that have the port for the requests of a list of turns, one per turn: the holder has
it first, then each agent of the list but the last; the turn of one that is not there leaves the
port with its holder (log 15). -/
def portHolders (there : Nat → Bool) (holder : Nat) : List Nat → List Nat
  | [] => []
  | k :: ks => holder :: portHolders there (if there k then k else holder) ks

/-- The set E of encoder-produced values (10_state.md rule R26). -/
inductive EncoderProduced (srrOnExt : Bool) : IdReg → Prop where
  | std (raw : Half) (h : raw.toNat ≤ stdMax) : EncoderProduced srrOnExt (newStd raw)
  | ext (raw : Word) (h : raw.toNat ≤ extMax) : EncoderProduced srrOnExt (newExt srrOnExt raw)
  | rtr (r : IdReg) (b : Bool) (h : EncoderProduced srrOnExt r) :
      EncoderProduced srrOnExt (withRtr r b)

/-- A decodable register value: its id bits 31..29 are zero (42_idreg_codec.md rule R141). -/
def decodable (r : IdReg) : Bool := bits r.id 31 29 == 0

/-- A reserved select value: 0x00, 0x0C to 0x0F and 0x19 to 0xFF (30_encoding.md rule R69). -/
def reservedSelect (sel : Select) : Bool :=
  sel.toNat == 0x00 || (0x0C ≤ sel.toNat && sel.toNat ≤ 0x0F) || 0x19 ≤ sel.toNat

/-- The bits of a register value that carry its identifier: id[28:0] of an extended operand, and
id[28:18] of a standard one when it is decodable (43_arbitration.md rule R156). -/
def identifierBits (r : IdReg) : Nat := if ide r then r.id.toNat else r.id.toNat / 2 ^ 18

/-- Every bound value meets the invariant of its type (10_state.md rule R21). -/
def valuesOk : List (Nat × Value) → Bool
  | [] => true
  | (_, v) :: rest => v.ok && valuesOk rest

/-- What a fault record says is what the spec records: the value that was out of range
(60_exceptions.md rule R171). -/
def faultInfoOk : FaultInfo → Bool
  | .uncheckedStdRange raw => stdMax < raw.toNat
  | .uncheckedExtRange raw => extMax < raw.toNat
  | .decodeRange code id _ => !decodable { code := code, id := id }

/-- The fault record names the request that faulted, which is the one at the index, and a fault of
the table (60_exceptions.md rules R171 and R176). -/
def AgentState.recordOk (h : AgentState) : Bool :=
  match h.faultRecord with
  | none => true
  | some r => r.index == h.index && decide (h.index < h.program.length) && faultInfoOk r.info

/-- The invariant of a host program: names strictly rising, one bound per completed request, every
bound value meeting its type's invariant, the index within the list, and a true fault record. -/
def AgentState.inv (h : AgentState) : Bool :=
  rising h.bindings && (h.bindings.length == h.index) && valuesOk h.bindings &&
    decide (h.index ≤ h.program.length) && h.recordOk

/-- The invariant of the machine: that of every agent's host program, and agents' numbers strictly
rising. -/
def State.inv (s : State) : Bool :=
  s.toAgentState.inv && rising s.agents && s.agents.all fun p => p.2.inv

end Sys2Proof.Machine
end

