-- ==== Sys2Proof/Certificates/Slice0/Obligations.lean ====
section
/-! DEFINITION. The statements for the provers. A result statement's conclusion is the next state:
`s.complete d v` binds v to the name d and advances the index, `s.raise f` records the fault f;
`CompletingBindsOneName`, `ExecChangesOnlyItsName` and `FaultEndsProgram` say what those do.
`s.read d = none` says that the result name is unbound; `s.resolve a = .ok v` that the operand a
presents the value v (a literal, a bound name or an unwrap). `s.turnOver o` is the step's answer when
presenting the line gives o: o itself where no other agent's turn is left, else a next state in which
the next turn has begun (`StepRunsDecodedInstruction`, `AgentsDoNotInterfere`); the turns are the
model's choice (log 15). -/

open Sys2Proof Sys2Proof.Machine

/-! ### Encoding and decoding -/

/-- Requests written out bit by bit from 30_encoding.md rule R63 (select in bits 7..0; the slots
above it as log 10 lays them) decode to the operations they stand for. The places of the slots
(log 10, DESIGN CHOICE), and that an Id's tag stands above its val and an IdReg's code above its id
(log 13, DEDUCED), are the model's reading. -/
def Obligations.SampleRequestsDecode : Prop :=
  decodeWord 0 0x07FF01 = .ok (.stdNew 0 (.lit (.u16 0x7FF))) ∧
  decodeWord 0 0x1234567807 = .ok (.extStandardId 0 (.lit (.extId 0x12345678))) ∧
  decodeWord 0 0x1123456780B = .ok (.idAsRaw 0 (.lit (.id (.extended 0x12345678)))) ∧
  decodeWord 0 0x1002000001234567812 =
    .ok (.idregWithRtr 0 (.lit (.idReg ⟨0x00200000, 0x12345678⟩)) (.lit (.bool true))) ∧
  decodeWord 0 0x00000000002800000000000000140000_17 =
    .ok (.idregCmp 0 (.lit (.idReg ⟨0, 0x00140000⟩)) (.lit (.idReg ⟨0, 0x00280000⟩)))

/-- 30_encoding.md rule R63: the twenty operations with their select values, mnemonics, slot types
and result types; and a line of each instruction is built from its operation's row. -/
def Obligations.OpcodeTableRows : Prop :=
  allOps.map (fun op => (op.select, op.mnemonic, op.slotTypes, op.resultType)) =
    [(0x01, "STD_NEW", [.u16], .optStd),
     (0x02, "STD_NEW_UNCHECKED", [.u16], .stdId),
     (0x03, "STD_AS_RAW", [.stdId], .u16),
     (0x04, "EXT_NEW", [.u32], .optExt),
     (0x05, "EXT_NEW_UNCHECKED", [.u32], .extId),
     (0x06, "EXT_AS_RAW", [.extId], .u32),
     (0x07, "EXT_STANDARD_ID", [.extId], .stdId),
     (0x08, "ID_FROM_STD", [.stdId], .id),
     (0x09, "ID_FROM_EXT", [.extId], .id),
     (0x0A, "ID_DEFAULT", [], .id),
     (0x0B, "ID_AS_RAW", [.id], .u32),
     (0x10, "IDREG_NEW_STD", [.stdId], .idReg),
     (0x11, "IDREG_NEW_EXT", [.extId], .idReg),
     (0x12, "IDREG_WITH_RTR", [.idReg, .bool], .idReg),
     (0x13, "IDREG_IS_EXT", [.idReg], .bool),
     (0x14, "IDREG_IS_STD", [.idReg], .bool),
     (0x15, "IDREG_RTR", [.idReg], .bool),
     (0x16, "IDREG_TO_ID", [.idReg], .id),
     (0x17, "IDREG_CMP", [.idReg, .idReg], .ordering),
     (0x18, "IDREG_EQ", [.idReg, .idReg], .bool)] ∧
  (∀ i : Instr, (encode i).select = i.op.select ∧
    (encode i).slots.length = i.op.slotTypes.length ∧ Op.ofSelect i.op.select = some i.op)

/-- Decoding the line of a well-formed instruction gives the instruction, whatever its operation,
result name and operands; the line of an ill-formed one is refused as OperandType. -/
def Obligations.DecodeInvertsEncode : Prop :=
  ∀ i : Instr, (i.wf = true → decode (encode i) = .ok i) ∧
    (i.wf = false → decode (encode i) = .error .operandType)

/-- Each instruction has one line: what decodes to it is its encoding, and it is well formed. -/
def Obligations.EncodeInvertsDecode : Prop :=
  ∀ (f : Frame) (i : Instr), decode f = .ok i → i.wf = true ∧ encode i = f

/-- A well-formed instruction whose operands are literals has a bit-packed request, and decoding the
request gives the instruction: no operand bit is lost. The place of the slots in the request is the
model's (log 10). -/
def Obligations.RequestWordRoundTrip : Prop :=
  ∀ i : Instr, i.wf = true → (∀ o ∈ i.operands, ∃ v, o = .lit v) →
    ∃ w, encodeWord i = some w ∧ decodeWord i.dst w = .ok i

/-- 30_encoding.md rule R69: exactly the selects 0x00, 0x0C to 0x0F and 0x19 to 0xFF are refused as
ReservedOp, by the block whatever the slots, and by the step for a line the host presents. -/
def Obligations.ReservedSelectsRefused : Prop :=
  (∀ (c : Config) (sel : Select) (slots : List Value),
    respond c sel slots = .refused .reservedOp ↔
      (sel.toNat = 0x00 ∨ (0x0C ≤ sel.toNat ∧ sel.toNat ≤ 0x0F) ∨ 0x19 ≤ sel.toNat)) ∧
  (∀ (s : State) (f : Frame) (vs : List Value), s.faultRecord = none → s.fetch = some f →
    s.read f.dst = none → s.resolveAll f.slots = .ok vs → reservedSelect f.select = true →
      step s = s.turnOver (.refused .reservedOp))

/-- 30_encoding.md rule R70: a request to an operation is refused as OperandType exactly when the
number or a type of its slots differs from the row or a StdId, ExtId or Id breaks its invariant; an
IdReg, U16, U32 or Bool has none. -/
def Obligations.OperandTypingChecked : Prop :=
  (∀ (c : Config) (op : Op) (slots : List Value),
    respond c op.select slots = .refused .operandType ↔
      ¬ (slots.map Value.type = op.slotTypes ∧ ∀ v ∈ slots, v.ok = true)) ∧
  (∀ x : Half, (Value.stdId x).ok = true ↔ x.toNat ≤ 0x7FF) ∧
  (∀ x : Word, (Value.extId x).ok = true ↔ x.toNat ≤ 0x1FFFFFFF) ∧
  (∀ x : Word, (Value.id (.standard x)).ok = true ↔ x.toNat ≤ 0x7FF) ∧
  (∀ x : Word, (Value.id (.extended x)).ok = true ↔ x.toNat ≤ 0x1FFFFFFF) ∧
  (∀ (r : IdReg) (x : Half) (y : Word) (b : Bool),
    (Value.idReg r).ok = true ∧ (Value.u16 x).ok = true ∧ (Value.u32 y).ok = true ∧
      (Value.bool b).ok = true)

/-- 60_exceptions.md rule R174: ReservedOp, then OperandType, then the operation's own fault; in
IDREG_CMP operand a's fault is the one reported when both operands are bad; and no operation has two
fault codes. -/
def Obligations.ConditionPriority : Prop :=
  (∀ (c : Config) (sel : Select) (slots : List Value), Op.ofSelect sel = none →
    respond c sel slots = .refused .reservedOp) ∧
  (∀ (c : Config) (sel : Select) (op : Op) (slots : List Value), Op.ofSelect sel = some op →
    ¬ (slots.map Value.type = op.slotTypes ∧ ∀ v ∈ slots, v.ok = true) →
      respond c sel slots = .refused .operandType) ∧
  (∀ (c : Config) (sel : Select) (op : Op) (slots : List Value), Op.ofSelect sel = some op →
    slots.map Value.type = op.slotTypes → (∀ v ∈ slots, v.ok = true) →
      ∀ reason, respond c sel slots ≠ .refused reason) ∧
  (∀ (c : Config) (a b : IdReg), bits a.id 31 29 ≠ 0 →
    respond c 0x17 [.idReg a, .idReg b] = .fault (.decodeRange a.code a.id (some .a))) ∧
  (∀ (c : Config) (a b : IdReg), bits a.id 31 29 = 0 → bits b.id 31 29 ≠ 0 →
    respond c 0x17 [.idReg a, .idReg b] = .fault (.decodeRange b.code b.id (some .b))) ∧
  (∀ (c c' : Config) (op : Op) (vs vs' : List Value) (f f' : FaultInfo),
    respond c op.select vs = .fault f → respond c' op.select vs' = .fault f' →
      faultCode f = faultCode f')

/-! ### The host program -/

/-- When the line at the request index decodes to i and no request of the program at the port has
faulted, the step is exec of i at that state, turned over; so is the step of a state made to fetch a
word. Turning over adds nothing where no turn is left; else the next turn begins, after exec's next
state, or from the state as it was where exec stops. The turns and what turning over does with them,
a next state after a stopped line among them, are the model's choice (log 15), since 20_memory.md
rule R55 gives every interleaving and no turns; so is the load that a fetched word stands for
(log 12), with its missing bits zero (log 11). -/
def Obligations.StepRunsDecodedInstruction : Prop :=
  (∀ (s : State) (f : Frame) (i : Instr), s.faultRecord = none → s.fetch = some f →
    decode f = .ok i → step s = s.turnOver (exec i s)) ∧
  (∀ (s : State) (nbits w : Nat) (i : Instr), decodeTableWord nbits w = some i →
    step (s.withFetchWord nbits w) =
      (s.withFetchWord nbits w).turnOver (exec i (s.withFetchWord nbits w))) ∧
  (∀ (s : State) (o : Host.Outcome State Fault Refusal), s.turns = [] → s.turnOver o = o) ∧
  (∀ s t : State, s.turns ≠ [] → s.turnOver (.next t) = .next t.yield) ∧
  (∀ (s : State) (r : Fault) (q : Refusal), s.turns ≠ [] →
    s.turnOver (.fault r) = .next s.yield ∧ s.turnOver (.refused q) = .next s.yield)

/-- The step of a host program is the host presenting the next line to the block, as rules R22, R27,
R62, R69, R70, R74 and R170 describe it: the result name is unbound, the operands are resolved, the
block responds, and the response is taken. It relates the per-instruction meanings to the one
request and response interface, for every line, decodable or not. The order of the host's refusals
before the block's is the model's choice (log 5, log 6), and so is that the step then turns over
(log 15), which no rule gives. -/
def Obligations.StepPresentsLine : Prop :=
  ∀ (s : State) (f : Frame), s.faultRecord = none → s.fetch = some f →
    step s = s.turnOver (s.present f)

/-- 60_exceptions.md rule R176: a faulting request is recorded with its index and fault; after it no
request of that program is presented, whichever agent's turn it is; no request and no step clears the
record; and no state with a record is good. The rest is the model's: that a step has no next state
after the fault where no turn is left (log 2, DEDUCED); that the fault ends its own program only
(log 15, DEDUCED), and that another agent's turn then begins (log 15, DESIGN CHOICE); and that no
later fault replaces the record (log 16, DEDUCED). -/
def Obligations.FaultEndsProgram : Prop :=
  (∀ (s : State) (f : Frame) (vs : List Value) (info : FaultInfo), s.faultRecord = none →
    s.fetch = some f → s.read f.dst = none → s.resolveAll f.slots = .ok vs →
    respond s.config f.select vs = .fault info →
      step s = s.turnOver
        (.next { s with faultRecord := some { index := s.index, info := info } })) ∧
  (∀ (s t : State) (r : FaultRecord), s.faultRecord = some r → s.turns = [] → step s ≠ .next t) ∧
  (∀ (s t : State) (k : Nat) (h : AgentState) (r : FaultRecord), s.agentState k = some h →
    h.faultRecord = some r →
      s.good = false ∧ (step s = .next t → t.agentState k = some h ∧ t.good = false)) ∧
  (∀ (i : Instr) (s t : State) (r : FaultRecord), exec i s = .next t → s.faultRecord = some r →
    t.faultRecord = some r)

/-- How the model's step answers when the program at the port has ended, which is the model's choice:
after a fault with the fault programFaulted, which carries the record (log 2); past the last request
with the state as it is (log 3); turned over in both cases (log 15). -/
def Obligations.StepAfterProgramEnd : Prop :=
  (∀ (s : State) (r : FaultRecord), s.faultRecord = some r →
    step s = s.turnOver (.fault (.programFaulted r))) ∧
  (∀ s : State, s.faultRecord = none → s.program.length ≤ s.index → step s = s.turnOver (.next s))

/-- 10_state.md rule R27: a program starts at index 0, a request that does not fault advances the
index by exactly 1, one that faults leaves it, and the list of requests never changes. A line that
is refused leaves the whole program as it is (log 16). -/
def Obligations.RequestIndexAdvances : Prop :=
  (∀ (s : State) (prog : List Frame), (s.load prog).index = 0 ∧ (s.load prog).program = prog) ∧
  (∀ (s t : State) (f : Frame), s.faultRecord = none → s.fetch = some f → step s = .next t →
    ∃ h, t.agentState s.agent = some h ∧ h.program = s.program ∧
      ((h.faultRecord = none ∧ h.index = s.index + 1) ∨
        (h.faultRecord ≠ none ∧ h.index = s.index) ∨
        ((∃ r, s.present f = .refused r) ∧ h = s.toAgentState)))

/-- The invariant holds at reset and is kept when a program is loaded, an agent joins and turns are
given. -/
def Obligations.InvHoldsAtStart : Prop :=
  State.reset.inv = true ∧ ∀ (s : State) (k : Nat) (prog : List Frame) (ks : List Nat),
    s.inv = true → (s.load prog).inv = true ∧ (s.addAgent k prog).inv = true ∧
      ({ s with turns := ks } : State).inv = true

/-- Every step from every state that meets the invariant meets it: for every agent, names strictly
rising, one name bound per completed request, every bound StdId, ExtId, Id and option within its range (10_state.md
rule R21), the index within the list, and a fault record that names the request at the index and a
value that was out of range. -/
def Obligations.StepKeepsInv : Prop :=
  ∀ s t : State, s.inv = true → step s = .next t → t.inv = true

/-- 70_reset_and_hazards.md rule R191: after reset the fault record is empty and no name holds a
value, so that every read is refused. SRR_ON_EXT = false is the spec's default (log 8); the empty
program (log 12) and the one agent with no turn to come (log 15) are the model's choice. -/
def Obligations.ResetState : Prop :=
  State.reset.faultRecord = none ∧ State.reset.index = 0 ∧ State.reset.program = [] ∧
    State.reset.config.srrOnExt = false ∧ State.reset.agent = 0 ∧ State.reset.agents = [] ∧
    State.reset.turns = [] ∧
    ∀ n : Nat, State.reset.read n = none ∧
      State.reset.resolve (.name n) = .error (.unboundName n) ∧
      State.reset.resolve (.unwrap n) = .error (.unboundName n)

/-- 10_state.md rule R22: a completed request's name holds its result for later operands; a name
once bound keeps its value through every request; and a line that reads an unbound name, as it
stands or unwrapped, is refused. That the refusal names the unbound name, ahead of a reserved
select, of bad slots and of a later operand's refusal, is the model's choice (log 6). -/
def Obligations.NamesBoundOnceUnboundRefused : Prop :=
  (∀ (s : State) (d : Nat) (v : Value), (s.complete d v).resolve (.name d) = .ok v) ∧
  (∀ (i : Instr) (s t : State) (n : Nat) (v : Value), exec i s = .next t → s.read n = some v →
    t.read n = some v) ∧
  (∀ (s : State) (f : Frame) (n : Nat) (o : Operand) (pre post : List Operand) (vs : List Value),
    s.faultRecord = none → s.fetch = some f → s.read f.dst = none → f.slots = pre ++ o :: post →
    s.resolveAll pre = .ok vs → (o = .name n ∨ o = .unwrap n) → s.read n = none →
      step s = s.turnOver (.refused (.unboundName n)))

/-- A line whose result name is bound is refused by that name, for every line: the model's choice
where 10_state.md rule R22 says a name is bound once (log 5), and so is its place ahead of every
other refusal of the line (log 6). -/
def Obligations.RebindingRefused : Prop :=
  ∀ (s : State) (f : Frame) (v : Value), s.faultRecord = none → s.fetch = some f →
    s.read f.dst = some v → step s = s.turnOver (.refused (.nameAlreadyBound f.dst))

/-- 30_encoding.md rule R74: vK.val presents the option's val as a StdId or an ExtId; where vK's
valid bit is 0 the line is refused and no request is presented. The place of this refusal among
those of one line is the model's choice (log 6). -/
def Obligations.UnwrapPresentsOptionVal : Prop :=
  (∀ (s : State) (n : Nat) (x : Half), s.read n = some (.optStd (some x)) →
    s.resolve (.unwrap n) = .ok (.stdId x)) ∧
  (∀ (s : State) (n : Nat) (x : Word), s.read n = some (.optExt (some x)) →
    s.resolve (.unwrap n) = .ok (.extId x)) ∧
  (∀ (s : State) (f : Frame) (n : Nat) (pre post : List Operand) (vs : List Value),
    s.faultRecord = none → s.fetch = some f → s.read f.dst = none →
    f.slots = pre ++ .unwrap n :: post → s.resolveAll pre = .ok vs →
    (s.read n = some (.optStd none) ∨ s.read n = some (.optExt none)) →
      step s = s.turnOver (.refused (.absentValue n)))

/-- A completed request binds its result to its name, advances the index by 1, and changes nothing
else. -/
def Obligations.CompletingBindsOneName : Prop :=
  ∀ (s : State) (d : Nat) (v : Value),
    (s.complete d v).read d = some v ∧ (∀ n, n ≠ d → (s.complete d v).read n = s.read n) ∧
      (s.complete d v).index = s.index + 1 ∧ (s.complete d v).program = s.program ∧
      (s.complete d v).config = s.config ∧ (s.complete d v).faultRecord = s.faultRecord ∧
      (s.complete d v).agent = s.agent ∧ (s.complete d v).agents = s.agents ∧
      (s.complete d v).turns = s.turns

/-- The frame of all twenty instructions. When exec gives a next state, the build parameter, the
program, the other agents and their turns, and every name but the result name are as before; and
either the request completed, with a
result of its row's type that meets its invariant, the index one on and the fault record as it was,
or it faulted, with no name bound, the index as it was and the fault in the record unless one was
there. -/
def Obligations.ExecChangesOnlyItsName : Prop :=
  ∀ (i : Instr) (s t : State), exec i s = .next t →
    t.config = s.config ∧ t.program = s.program ∧ t.agent = s.agent ∧ t.agents = s.agents ∧
      t.turns = s.turns ∧ (∀ n, n ≠ i.dst → t.read n = s.read n) ∧
      s.read i.dst = none ∧
      ((∃ v, t.read i.dst = some v ∧ v.type = i.op.resultType ∧ v.ok = true ∧
          t.index = s.index + 1 ∧ t.faultRecord = s.faultRecord) ∨
        (∃ f, t.bindings = s.bindings ∧ t.index = s.index ∧
          t.faultRecord = s.faultRecord.or (some { index := s.index, info := f })))

/-- 42_idreg_codec.md rule R137: no request changes its operands; whatever an operand presented
before a request it presents after it. -/
def Obligations.OperandsUnchanged : Prop :=
  ∀ (i : Instr) (s t : State) (o : Operand) (v : Value), exec i s = .next t →
    s.resolve o = .ok v → t.resolve o = .ok v

/-- 60_exceptions.md rule R171: the only faults, which operations raise them, on what operands, and
the value and code recorded; and each cause raises its fault. -/
def Obligations.FaultCausesAndInfo : Prop :=
  (∀ (i : Instr) (s t : State) (r : FaultRecord), exec i s = .next t → s.faultRecord = none →
    t.faultRecord = some r →
      (∃ d a x, i = .stdNewUnchecked d a ∧ s.resolve a = .ok (.u16 x) ∧ 0x7FF < x.toNat ∧
        r.info = .uncheckedStdRange x ∧ faultCode r.info = 1) ∨
      (∃ d a x, i = .extNewUnchecked d a ∧ s.resolve a = .ok (.u32 x) ∧ 0x1FFFFFFF < x.toNat ∧
        r.info = .uncheckedExtRange x ∧ faultCode r.info = 2) ∨
      (∃ d a x, i = .idregToId d a ∧ s.resolve a = .ok (.idReg x) ∧ bits x.id 31 29 ≠ 0 ∧
        r.info = .decodeRange x.code x.id none ∧ faultCode r.info = 3) ∨
      (∃ d a b x y, i = .idregCmp d a b ∧ s.resolve a = .ok (.idReg x) ∧
        s.resolve b = .ok (.idReg y) ∧ faultCode r.info = 3 ∧
        ((bits x.id 31 29 ≠ 0 ∧ r.info = .decodeRange x.code x.id (some .a)) ∨
          (bits x.id 31 29 = 0 ∧ bits y.id 31 29 ≠ 0 ∧
            r.info = .decodeRange y.code y.id (some .b))))) ∧
  (∀ (c : Config) (x : Half), 0x7FF < x.toNat →
    respond c 0x02 [.u16 x] = .fault (.uncheckedStdRange x)) ∧
  (∀ (c : Config) (x : Word), 0x1FFFFFFF < x.toNat →
    respond c 0x05 [.u32 x] = .fault (.uncheckedExtRange x)) ∧
  (∀ (c : Config) (r : IdReg), bits r.id 31 29 ≠ 0 →
    respond c 0x16 [.idReg r] = .fault (.decodeRange r.code r.id none)) ∧
  (∀ (c : Config) (a b : IdReg), (bits a.id 31 29 ≠ 0 ∨ bits b.id 31 29 ≠ 0) →
    ∃ f, respond c 0x17 [.idReg a, .idReg b] = .fault f ∧ faultCode f = 3)

/-- 10_state.md rule R20: a request's result depends only on its operation and the operands presented
with it, whatever the two states, their other names, indices, programs and records are; presenting
the same request again gives the same result. -/
def Obligations.ResultDependsOnlyOnOperands : Prop :=
  ∀ (i j : Instr) (s t : State), i.op = j.op → s.config = t.config →
    s.resolveAll i.operands = t.resolveAll j.operands → s.read i.dst = none →
    t.read j.dst = none →
      (∃ v, exec i s = .next (s.complete i.dst v) ∧ exec j t = .next (t.complete j.dst v)) ∨
      (∃ f, exec i s = .next (s.raise f) ∧ exec j t = .next (t.raise f)) ∨
      (∃ r, exec i s = .refused r ∧ exec j t = .refused r)

/-- Within one host program two requests that complete, neither reading the other's result, give the
same results and the same state in either order (20_memory.md rule R55 (a)). Requests of different
agents are in `AgentsDoNotInterfere` and `EveryInterleavingGivesTheSameResults`. -/
def Obligations.RequestsCommute : Prop :=
  ∀ (i j : Instr) (s : State) (v w : Value), rising s.bindings = true → i.dst ≠ j.dst →
    (∀ o ∈ i.operands, j.dst ∉ operandNames o) → (∀ o ∈ j.operands, i.dst ∉ operandNames o) →
    exec i s = .next (s.complete i.dst v) → exec j s = .next (s.complete j.dst w) →
      ∃ t, exec j (s.complete i.dst v) = .next t ∧ exec i (s.complete j.dst w) = .next t ∧
        t.read i.dst = some v ∧ t.read j.dst = some w

/-- 20_memory.md rule R55 (b), for one turn: the program of the agent at the port advances as it does
alone, whether its request completes, faults or is refused or the program has ended; every other
agent's program is as it was. The rest is the model's choice (log 15): with a turn left there is
always a next state, after a refusal and in an ended program too; the turn is used up; and the agent
whose turn it is has the port, which one that is not there leaves with its holder. That a fault or a
refusal ends its own program only is deduced (log 15). -/
def Obligations.AgentsDoNotInterfere : Prop :=
  (∀ s : State, s.turns ≠ [] →
    ∃ t, step s = .next t ∧ t.config = s.config ∧ t.turns = s.turns.tail ∧
      (∀ k, s.turns.head? = some k →
        t.agent = if (s.agentState k).isSome then k else s.agent) ∧
      ∀ k, t.agentState k =
        if k = s.agent then some (s.toAgentState.advance s.config) else s.agentState k) ∧
  (∀ s t : State, s.turns = [] → step s = .next t →
    t = { s with toAgentState := s.toAgentState.advance s.config })

/-- 20_memory.md rule R55 (b) and 60_exceptions.md rule R183: whatever the interleaving of the turns,
each agent's program ends up as its own steps alone leave it, as many as it has turns, so that every
request has the result it has alone. It is the model's choice (log 15) that the run answers a next
state through refused lines and ended programs, with one step per turn, that the agent at the port
has the first and the last turn given is still to come, and that the turn of an agent that is not
there leaves the port with its holder; that a fault or a refusal ends its own program only is deduced
(log 15). -/
def Obligations.EveryInterleavingGivesTheSameResults : Prop :=
  ∀ s : State,
    ∃ t, Sys2Proof.core.run s.turns.length s = .next t ∧ t.turns = [] ∧ t.config = s.config ∧
      ∀ k h, s.agentState k = some h →
        t.agentState k =
          some ((AgentState.advance s.config)^[(portHolders (fun j => (s.agentState j).isSome)
            s.agent s.turns).count k] h)

/-! ### Results, 40_identifiers.md -/

/-- Rule R100: STD_NEW completes on every U16; the result is present exactly up to 0x7FF. -/
def Obligations.StdNewGivesOptStd : Prop :=
  ∀ (s : State) (d : Nat) (a : Operand) (x : Half), s.read d = none →
    s.resolve a = .ok (.u16 x) →
      exec (.stdNew d a) s =
        .next (s.complete d (.optStd (if x.toNat ≤ 0x7FF then some x else none))) ∧
      (encode (.stdNew d a)).select = 0x01

/-- Rule R101: STD_NEW_UNCHECKED completes on every U16 up to 0x7FF, with the value STD_NEW gives,
and faults with code 1 on every other. -/
def Obligations.StdNewUncheckedGivesStdId : Prop :=
  ∀ (s : State) (d : Nat) (a : Operand) (x : Half), s.read d = none →
    s.resolve a = .ok (.u16 x) →
      (x.toNat ≤ 0x7FF → exec (.stdNewUnchecked d a) s = .next (s.complete d (.stdId x)) ∧
        exec (.stdNew d a) s = .next (s.complete d (.optStd (some x)))) ∧
      (0x7FF < x.toNat → exec (.stdNewUnchecked d a) s = .next (s.raise (.uncheckedStdRange x)) ∧
        faultCode (.uncheckedStdRange x) = 1) ∧
      (encode (.stdNewUnchecked d a)).select = 0x02

/-- Rules R102 and R105: STD_AS_RAW and EXT_AS_RAW complete on every identifier and return the
stored value unchanged. -/
def Obligations.AsRawGivesStoredValue : Prop :=
  (∀ (s : State) (d : Nat) (a : Operand) (x : Half), s.read d = none →
    s.resolve a = .ok (.stdId x) → x.toNat ≤ 0x7FF →
      exec (.stdAsRaw d a) s = .next (s.complete d (.u16 x)) ∧
        (encode (.stdAsRaw d a)).select = 0x03) ∧
  (∀ (s : State) (d : Nat) (a : Operand) (x : Word), s.read d = none →
    s.resolve a = .ok (.extId x) → x.toNat ≤ 0x1FFFFFFF →
      exec (.extAsRaw d a) s = .next (s.complete d (.u32 x)) ∧
        (encode (.extAsRaw d a)).select = 0x06)

/-- Rule R103: EXT_NEW completes on every U32; the result is present exactly up to 0x1FFFFFFF. -/
def Obligations.ExtNewGivesOptExt : Prop :=
  ∀ (s : State) (d : Nat) (a : Operand) (x : Word), s.read d = none →
    s.resolve a = .ok (.u32 x) →
      exec (.extNew d a) s =
        .next (s.complete d (.optExt (if x.toNat ≤ 0x1FFFFFFF then some x else none))) ∧
      (encode (.extNew d a)).select = 0x04

/-- Rule R104: EXT_NEW_UNCHECKED completes on every U32 up to 0x1FFFFFFF, with the value EXT_NEW
gives, and faults with code 2 on every other. -/
def Obligations.ExtNewUncheckedGivesExtId : Prop :=
  ∀ (s : State) (d : Nat) (a : Operand) (x : Word), s.read d = none →
    s.resolve a = .ok (.u32 x) →
      (x.toNat ≤ 0x1FFFFFFF → exec (.extNewUnchecked d a) s = .next (s.complete d (.extId x)) ∧
        exec (.extNew d a) s = .next (s.complete d (.optExt (some x)))) ∧
      (0x1FFFFFFF < x.toNat →
        exec (.extNewUnchecked d a) s = .next (s.raise (.uncheckedExtRange x)) ∧
          faultCode (.uncheckedExtRange x) = 2) ∧
      (encode (.extNewUnchecked d a)).select = 0x05

/-- Rule R107: EXT_STANDARD_ID completes on every extended identifier with its bits 28..18, a value
of at most 0x7FF; the low 18 bits are lost: every identifier with the same top bits gives it too. -/
def Obligations.ExtStandardIdGivesBaseId : Prop :=
  ∀ (s : State) (d : Nat) (a : Operand) (x : Word), s.read d = none →
    s.resolve a = .ok (.extId x) → x.toNat ≤ 0x1FFFFFFF →
      exec (.extStandardId d a) s = .next (s.complete d (.stdId ((x >>> 18).setWidth 16))) ∧
        (encode (.extStandardId d a)).select = 0x07 ∧
        ((x >>> 18).setWidth 16).toNat = bits x 28 18 ∧ bits x 28 18 ≤ 0x7FF ∧
        ∀ y : Word, y.toNat ≤ 0x1FFFFFFF → y.toNat / 2 ^ 18 = x.toNat / 2 ^ 18 →
          (y >>> 18).setWidth 16 = (x >>> 18).setWidth 16

/-! ### Results, 41_id_union.md -/

/-- Rules R120 and R121: ID_FROM_STD and ID_FROM_EXT complete on every identifier, with tag 0 and
the zero-extended value, and with tag 1 and the value; no Extended is the default Id. -/
def Obligations.IdFromLeafWraps : Prop :=
  (∀ (s : State) (d : Nat) (a : Operand) (x : Half), s.read d = none →
    s.resolve a = .ok (.stdId x) → x.toNat ≤ 0x7FF →
      exec (.idFromStd d a) s = .next (s.complete d (.id (.standard (x.setWidth 32)))) ∧
        (CanId.standard (x.setWidth 32)).tag = 0 ∧
        (CanId.standard (x.setWidth 32)).val.toNat = x.toNat ∧ (encode (.idFromStd d a)).select = 0x08) ∧
  (∀ (s : State) (d : Nat) (a : Operand) (x : Word), s.read d = none →
    s.resolve a = .ok (.extId x) → x.toNat ≤ 0x1FFFFFFF →
      exec (.idFromExt d a) s = .next (s.complete d (.id (.extended x))) ∧
        (CanId.extended x).tag = 1 ∧ (CanId.extended x).val = x ∧
        CanId.extended x ≠ idDefault ∧ (encode (.idFromExt d a)).select = 0x09)

/-- Rule R122: ID_DEFAULT completes with Standard(0). -/
def Obligations.IdDefaultGivesStandardZero : Prop :=
  ∀ (s : State) (d : Nat), s.read d = none →
    exec (.idDefault d) s = .next (s.complete d (.id (.standard 0))) ∧
      (encode (.idDefault d)).select = 0x0A

/-- Rules R123 and R124: ID_AS_RAW completes on every Id with its val; the tag is dropped. Two Ids
are equal exactly when their tags and their vals are, so a Standard is never an Extended. -/
def Obligations.IdAsRawDropsTag : Prop :=
  (∀ (s : State) (d : Nat) (a : Operand) (x : Word), s.read d = none →
    (s.resolve a = .ok (.id (.standard x)) → x.toNat ≤ 0x7FF →
      exec (.idAsRaw d a) s = .next (s.complete d (.u32 x))) ∧
    (s.resolve a = .ok (.id (.extended x)) → x.toNat ≤ 0x1FFFFFFF →
      exec (.idAsRaw d a) s = .next (s.complete d (.u32 x))) ∧
    (encode (.idAsRaw d a)).select = 0x0B) ∧
  (∀ i j : CanId, i = j ↔ (i.tag = j.tag ∧ i.val = j.val))

/-! ### Results, 42_idreg_codec.md -/

/-- Rule R130: IDREG_NEW_STD completes on every standard identifier with a zero code word and the
identifier in id bits 28..18; id bits 17..0 and 31..29 are zero. -/
def Obligations.IdregNewStdEncodes : Prop :=
  ∀ (s : State) (d : Nat) (a : Operand) (x : Half), s.read d = none →
    s.resolve a = .ok (.stdId x) → x.toNat ≤ 0x7FF →
      exec (.idregNewStd d a) s =
        .next (s.complete d (.idReg ⟨0x00000000, x.setWidth 32 <<< 18⟩)) ∧
      bits (x.setWidth 32 <<< 18) 17 0 = 0 ∧ bits (x.setWidth 32 <<< 18) 28 18 = x.toNat ∧
      bits (x.setWidth 32 <<< 18) 31 29 = 0 ∧ (encode (.idregNewStd d a)).select = 0x10

/-- Rule R131: IDREG_NEW_EXT completes on every extended identifier with IDE set, SRR as SRR_ON_EXT
says (both values), every other code bit zero, and the identifier in id bits 28..0. -/
def Obligations.IdregNewExtEncodes : Prop :=
  ∀ (s : State) (d : Nat) (a : Operand) (x : Word), s.read d = none →
    s.resolve a = .ok (.extId x) → x.toNat ≤ 0x1FFFFFFF →
      exec (.idregNewExt d a) s =
        .next (s.complete d
          (.idReg ⟨if s.config.srrOnExt then 0x00600000 else 0x00200000, x⟩)) ∧
      (encode (.idregNewExt d a)).select = 0x11

/-- Rule R132: IDREG_WITH_RTR completes on any 64 bits; RTR is the operand, every other code bit and
the id word are copied; only the last of two applications counts, and writing the bit it has gives
the operand back. -/
def Obligations.IdregWithRtrSetsOnlyRtr : Prop :=
  ∀ (s : State) (d : Nat) (a b : Operand) (r : IdReg) (x : Bool), s.read d = none →
    s.resolve a = .ok (.idReg r) → s.resolve b = .ok (.bool x) →
      ∃ r' : IdReg, exec (.idregWithRtr d a b) s = .next (s.complete d (.idReg r')) ∧
        r'.code = (r.code &&& ~~~0x00100000#32) ||| (if x then 0x00100000#32 else 0#32) ∧
        r'.id = r.id ∧ r'.code.getLsbD 20 = x ∧
        (∀ k, k ≠ 20 → r'.code.getLsbD k = r.code.getLsbD k) ∧
        (∀ y : Bool, withRtr (withRtr r x) y = withRtr r y) ∧
        (x = r.code.getLsbD 20 → r' = r) ∧ (encode (.idregWithRtr d a b)).select = 0x12

/-- Rules R133, R134 and R135: IDREG_IS_EXT, IDREG_IS_STD and IDREG_RTR complete on any 64 bits and
test code bit 21 set, code bit 21 clear and code bit 20 set; an encoder's result has RTR clear. -/
def Obligations.FlagAccessorsTestOneBit : Prop :=
  (∀ (s : State) (d : Nat) (a : Operand) (r : IdReg), s.read d = none →
    s.resolve a = .ok (.idReg r) →
      exec (.idregIsExt d a) s = .next (s.complete d (.bool (r.code.getLsbD 21))) ∧
      exec (.idregIsStd d a) s = .next (s.complete d (.bool (!r.code.getLsbD 21))) ∧
      exec (.idregRtr d a) s = .next (s.complete d (.bool (r.code.getLsbD 20)))) ∧
  (∀ (d : Nat) (a : Operand), (encode (.idregIsExt d a)).select = 0x13 ∧
    (encode (.idregIsStd d a)).select = 0x14 ∧ (encode (.idregRtr d a)).select = 0x15) ∧
  (∀ (c : Bool) (x : Half) (y : Word), (newStd x).code.getLsbD 20 = false ∧
    (newExt c y).code.getLsbD 20 = false)

/-- Rule R140: IDREG_TO_ID completes on every register value whose id[31:29] is 0, with the Id its
IDE bit selects, and faults with code 3 on every other. -/
def Obligations.IdregToIdDecodes : Prop :=
  ∀ (s : State) (d : Nat) (a : Operand) (r : IdReg), s.read d = none →
    s.resolve a = .ok (.idReg r) →
      (bits r.id 31 29 = 0 →
        exec (.idregToId d a) s =
          .next (s.complete d
            (.id (if r.code.getLsbD 21 then .extended r.id else .standard (r.id >>> 18))))) ∧
      (bits r.id 31 29 ≠ 0 →
        exec (.idregToId d a) s = .next (s.raise (.decodeRange r.code r.id none)) ∧
          faultCode (.decodeRange r.code r.id none) = 3) ∧
      (encode (.idregToId d a)).select = 0x16

/-! ### Results, 43_arbitration.md -/

/-- Rule R150: IDREG_CMP completes on every two decodable values. Two values of one type compare
their identifiers inverted, then RTR; a standard and an extended value compare 11-bit ids inverted,
then the standard one is greater. Otherwise it faults with code 3, operand a first. `ide` and `rtr`
are code bits 21 and 20, as `FlagAccessorsTestOneBit` says of the accessors. -/
def Obligations.IdregCmpOrders : Prop :=
  ∀ (s : State) (d : Nat) (a b : Operand) (x y : IdReg), s.read d = none →
    s.resolve a = .ok (.idReg x) → s.resolve b = .ok (.idReg y) →
      (bits x.id 31 29 = 0 → bits y.id 31 29 = 0 →
        exec (.idregCmp d a b) s = .next (s.complete d (.ordering (
          if ide x = ide y then
            (if identifierBits x < identifierBits y then .greater
             else if identifierBits y < identifierBits x then .less
             else if rtr x = rtr y then .equal
             else if rtr x then .less else .greater)
          else
            (if x.id.toNat / 2 ^ 18 < y.id.toNat / 2 ^ 18 then .greater
             else if y.id.toNat / 2 ^ 18 < x.id.toNat / 2 ^ 18 then .less
             else if ide x then .less else .greater))))) ∧
      (bits x.id 31 29 ≠ 0 →
        exec (.idregCmp d a b) s = .next (s.raise (.decodeRange x.code x.id (some .a)))) ∧
      (bits x.id 31 29 = 0 → bits y.id 31 29 ≠ 0 →
        exec (.idregCmp d a b) s = .next (s.raise (.decodeRange y.code y.id (some .b)))) ∧
      faultCode (.decodeRange x.code x.id (some .a)) = 3 ∧
      faultCode (.decodeRange y.code y.id (some .b)) = 3 ∧
      (encode (.idregCmp d a b)).select = 0x17

/-- Rule R157: IDREG_EQ completes on any 64 bits each; true exactly when both words are equal. -/
def Obligations.IdregEqComparesBothWords : Prop :=
  ∀ (s : State) (d : Nat) (a b : Operand) (x y : IdReg), s.read d = none →
    s.resolve a = .ok (.idReg x) → s.resolve b = .ok (.idReg y) →
      exec (.idregEq d a b) s =
        .next (s.complete d (.bool (decide (x.code = y.code ∧ x.id = y.id)))) ∧
      (encode (.idregEq d a b)).select = 0x18

/-! ### Laws of the codec -/

/-- 10_state.md rule R25, which the spec marks as derived from R24 and R107: id bits 31..18 of a
standard encoding are the identifier, and of an extended encoding its base id. -/
def Obligations.BaseIdPositionsLineUp : Prop :=
  (∀ x : Half, x.toNat ≤ 0x7FF → (newStd x).id.toNat / 2 ^ 18 = x.toNat) ∧
  (∀ (c : Bool) (x : Word), x.toNat ≤ 0x1FFFFFFF →
    (newExt c x).id.toNat / 2 ^ 18 = (baseId x).toNat)

/-- 42_idreg_codec.md rules R141, R142 and R144, which the spec marks as derived: the decoder gives no
Id exactly when id[31:29] is not 0, whatever IDE is; and decoding reads only IDE and the identifier
bits, so that RTR, SRR, DLC, TIMESTAMP, the reserved bits and a standard value's low 18 id bits are
ignored. -/
def Obligations.DecodeReadsOnlyIdentifier : Prop :=
  (∀ r : IdReg, (toId r = none ↔ bits r.id 31 29 ≠ 0) ∧ ∀ i, toId r = some i → i.ok = true) ∧
  (∀ r q : IdReg, ide r = ide q → identifierBits r = identifierBits q → toId r = toId q)

/-- 42_idreg_codec.md rule R143, which the spec marks as derived: decoding an encoding gives the
identifier back, after any number of RTR writes and for either SRR_ON_EXT. -/
def Obligations.RoundTripThroughRtrWrites : Prop :=
  (∀ (x : Half) (bs : List Bool), x.toNat ≤ 0x7FF →
    toId (bs.foldl withRtr (newStd x)) = some (.standard (x.setWidth 32))) ∧
  (∀ (c : Bool) (x : Word) (bs : List Bool), x.toNat ≤ 0x1FFFFFFF →
    toId (bs.foldl withRtr (newExt c x)) = some (.extended x))

/-- 10_state.md rule R26, which the spec marks as derived: the encoder-produced values are exactly
the two-word values with these code words. -/
def Obligations.EncoderProducedForms : Prop :=
  ∀ (c : Bool) (r : IdReg), EncoderProduced c r ↔
    (∃ (x : Half) (b : Bool), x.toNat ≤ 0x7FF ∧
      r = ⟨if b then 0x00100000 else 0x00000000, x.setWidth 32 <<< 18⟩) ∨
    (∃ (x : Word) (b : Bool), x.toNat ≤ 0x1FFFFFFF ∧
      r = ⟨if c then (if b then 0x00700000 else 0x00600000)
           else (if b then 0x00300000 else 0x00200000), x⟩)

/-- 42_idreg_codec.md rule R145 and 43_arbitration.md rule R161, which the spec marks as derived: on
encoder-produced values IDREG_TO_ID and IDREG_CMP complete. -/
def Obligations.EncoderProducedNeverFault : Prop :=
  ∀ (c : Bool) (s : State) (d : Nat) (a b : Operand) (x y : IdReg), s.read d = none →
    s.resolve a = .ok (.idReg x) → s.resolve b = .ok (.idReg y) → EncoderProduced c x →
    EncoderProduced c y →
      (∃ i, exec (.idregToId d a) s = .next (s.complete d (.id i))) ∧
      (∃ o, exec (.idregCmp d a b) s = .next (s.complete d (.ordering o)))

/-- 42_idreg_codec.md rule R136, which the spec marks as derived: encoders write 0 to every code bit
but IDE and SRR, and IDREG_WITH_RTR carries SRR, IDE, DLC, TIMESTAMP and the reserved bits over. -/
def Obligations.BitRouting : Prop :=
  (∀ (c : Bool) (x : Half) (y : Word) (k : Nat),
    (newStd x).code.getLsbD k = false ∧
      (k ≠ 21 → k ≠ 22 → (newExt c y).code.getLsbD k = false)) ∧
  (∀ (r : IdReg) (b : Bool), srr (withRtr r b) = srr r ∧ ide (withRtr r b) = ide r ∧
    dlc (withRtr r b) = dlc r ∧ timestamp (withRtr r b) = timestamp r ∧
    bits (withRtr r b).code 31 23 = bits r.code 31 23 ∧ (withRtr r b).id = r.id)

/-! ### Laws of the order -/

/-- 43_arbitration.md rule R155, which the spec marks as derived: the comparison of decodable values
is the reversed order of a 31-bit key. -/
def Obligations.CmpFollowsPriorityKey : Prop :=
  ∀ a b : IdReg, decodable a = true → decodable b = true →
    priorityKey a < 2 ^ 31 ∧
      cmpReg a b = .ok (if priorityKey a < priorityKey b then .greater
        else if priorityKey a = priorityKey b then .equal else .less)

/-- 43_arbitration.md rules R154 and R155, which the spec marks as derived: on decodable values
swapping the operands reverses the result, a value compares Equal with itself, and the order is total
and transitive. -/
def Obligations.CmpIsTotalPreorder : Prop :=
  (∀ a b : IdReg, decodable a = true → decodable b = true →
    cmpReg b a = (cmpReg a b).map ArbOrder.reverse ∧ cmpReg a a = .ok .equal) ∧
  (∀ a b c : IdReg, decodable a = true → decodable b = true → decodable c = true →
    ∃ ab bc ac : ArbOrder, cmpReg a b = .ok ab ∧ cmpReg b c = .ok bc ∧ cmpReg a c = .ok ac ∧
      (ab.isLe = true → bc.isLe = true → ac.isLe = true) ∧
      (ab.isLt = true → bc.isLe = true → ac.isLt = true))

/-- 43_arbitration.md rule R156, which the spec marks as derived: the comparison reads only IDE, RTR
and the identifier bits; two values that agree in those compare Equal and compare alike with any
third. -/
def Obligations.CmpReadsOnlyIdentifierAndFlags : Prop :=
  ∀ a b c : IdReg, decodable a = true → ide a = ide b →
    rtr a = rtr b → identifierBits a = identifierBits b →
      cmpReg a b = .ok .equal ∧ cmpReg a c = cmpReg b c ∧ cmpReg c a = cmpReg c b

/-- 43_arbitration.md rules R156 and R158, which the spec marks as derived: equal decodable values
compare Equal; on encoder-produced values Equal holds exactly for values identical in both words,
which are those IDREG_EQ calls equal; on raw values it holds for others too. -/
def Obligations.EqAgreesWithCmp : Prop :=
  (∀ a b : IdReg, decodable a = true → decodable b = true → eqReg a b = true →
    cmpReg a b = .ok .equal) ∧
  (∀ (c : Bool) (a b : IdReg), EncoderProduced c a → EncoderProduced c b →
    (cmpReg a b = .ok .equal ↔ a = b) ∧ (cmpReg a b = .ok .equal ↔ eqReg a b = true)) ∧
  (cmpReg ⟨0x00081234, 0x00140000⟩ ⟨0x00000000, 0x00140000⟩ = .ok .equal ∧
    eqReg ⟨0x00081234, 0x00140000⟩ ⟨0x00000000, 0x00140000⟩ = false)

/-- 43_arbitration.md rule R152: a standard and an extended operand compare x against y >> 18
inverted, and on equality the standard operand is greater, on either side, whatever the RTR bits and
the low 18 bits are (neither stands in the result). -/
def Obligations.CrossTypeStandardWins : Prop :=
  ∀ a b : IdReg, decodable a = true → decodable b = true → ide a = false →
    ide b = true →
      cmpReg a b = .ok (if b.id.toNat / 2 ^ 18 < a.id.toNat / 2 ^ 18 then .less else .greater) ∧
      cmpReg b a = .ok (if b.id.toNat / 2 ^ 18 < a.id.toNat / 2 ^ 18 then .greater else .less)

/-- 43_arbitration.md rule R151: between equal decoded ids the RTR bits decide, the data frame being
greater and equal bits Equal; between different decoded ids, of one type or of two, no RTR bit
changes the result. -/
def Obligations.RtrTieBreakOnEqualIds : Prop :=
  ∀ a b : IdReg, decodable a = true → decodable b = true →
    (toId a = toId b →
      (rtr a = rtr b → cmpReg a b = .ok .equal) ∧
      (rtr a = false → rtr b = true → cmpReg a b = .ok .greater) ∧
      (rtr a = true → rtr b = false → cmpReg a b = .ok .less)) ∧
    (toId a ≠ toId b → ∀ p q : Bool, cmpReg (withRtr a p) (withRtr b q) = cmpReg a b)

/-- 43_arbitration.md rule R153: the four relations read off one result; a smaller raw identifier of
one type compares as greater; and every list of pending decodable values has a maximum, which no
value of the list beats. -/
def Obligations.HostRelationsAndMaximum : Prop :=
  (∀ o : ArbOrder, (o.isGt = true ↔ o = .greater) ∧ (o.isLt = true ↔ o = .less) ∧
    (o.isGe = true ↔ o ≠ .less) ∧ (o.isLe = true ↔ o ≠ .greater)) ∧
  (∀ a b : IdReg, decodable a = true → decodable b = true →
    ide a = ide b → identifierBits a < identifierBits b →
      ∃ o, cmpReg a b = .ok o ∧ o.isGt = true) ∧
  (∀ pending : List IdReg, pending ≠ [] → (∀ r ∈ pending, decodable r = true) →
    ∃ m ∈ pending, ∀ r ∈ pending, ∃ o, cmpReg m r = .ok o ∧ o.isGe = true)

/-- 43_arbitration.md rule R160, which the spec calls informative and takes from general knowledge
(log 14): comparing the arbitration bits as sent, first difference deciding and dominant winning,
gives the comparison of the identifiers. -/
def Obligations.WireReadingAgrees : Prop :=
  ∀ (i j : CanId) (p q : Bool), i.ok = true → j.ok = true →
    wireCmp (wireBits i p) (wireBits j q) = compareIds i j p q

/-! ### Values and host text -/

/-- 30_encoding.md rule R73: the bits of each type of value. A Bool is 1 for true; an option is valid
1 and its val, or all zeros; an Id is its tag, 0 for Standard and 1 for Extended, and its val; an
Ordering is Less 0b11, Equal 0b00 or Greater 0b01, never 0b10; an IdReg is its two words. They fit
the type's width and determine the value. That the first part of a pair is the more significant one
is the model's reading (log 13). -/
def Obligations.ResultBitsDetermineValue : Prop :=
  (∀ v w : Value, v.type = w.type → v.bits = w.bits → v = w) ∧
  (∀ v : Value, v.bits / 2 ^ v.type.width = 0) ∧
  (∀ b : Bool, (Value.bool b).bits = if b then 1 else 0) ∧
  (∀ x : Half, (Value.u16 x).bits = x.toNat ∧ (Value.stdId x).bits = x.toNat ∧
    (Value.optStd (some x)).bits = 1 * 2 ^ 16 + x.toNat) ∧
  (∀ x : Word, (Value.u32 x).bits = x.toNat ∧ (Value.extId x).bits = x.toNat ∧
    (Value.optExt (some x)).bits = 1 * 2 ^ 32 + x.toNat) ∧
  (Value.optStd none).bits = 0 ∧ (Value.optExt none).bits = 0 ∧
  (∀ x : Word, (CanId.standard x).tag = 0 ∧ (CanId.extended x).tag = 1 ∧
    (Value.id (.standard x)).bits = 0 * 2 ^ 32 + x.toNat ∧
    (Value.id (.extended x)).bits = 1 * 2 ^ 32 + x.toNat) ∧
  (∀ r : IdReg, (Value.idReg r).bits = r.code.toNat * 2 ^ 32 + r.id.toNat) ∧
  (Value.ordering .less).bits = 0b11 ∧ (Value.ordering .equal).bits = 0b00 ∧
  (Value.ordering .greater).bits = 0b01 ∧ (∀ o : ArbOrder, (Value.ordering o).bits ≠ 0b10)

/-- 20_memory.md rule R51: whatever the byte order is, serialising a word and reading it back gives
the word; the two orders are each other's reverse. -/
def Obligations.WordBytesRoundTrip : Prop :=
  ∀ (o : ByteOrder) (w : Word), (wordToBytes o w).length = 4 ∧
    wordOfBytes o (wordToBytes o w) = some w ∧
    wordToBytes .big w = (wordToBytes .little w).reverse ∧
    wordOfBytes Config.wordByteOrder (serialiseWord w) = some w

/-- 30_encoding.md rule R75: FRAME_STD and FRAME_EXT expand to two requests which, with vT unbound,
both complete and leave in vN the encoding with the RTR flag given; the four constants are one
request each. A text's requests are its lines' expansions in order, the k-th line's with a vT of its
own, which is another line's vT in no case and no name the program writes or reads. Which fresh
names those are, the numbers above every name of the program, is the model's choice (log 17). -/
def Obligations.PseudoOperationsExpandAndRun : Prop :=
  (∀ (s : State) (t d : Nat) (a r : Operand) (x : Half) (b : Bool), s.read t = none →
    s.read d = none → t ≠ d → s.resolve a = .ok (.stdId x) → x.toNat ≤ 0x7FF →
    s.resolve r = .ok (.bool b) →
      (Line.frameStd d a r).expand t =
        [encode (.idregNewStd t a), encode (.idregWithRtr d (.name t) r)] ∧
      ∃ s₁ s₂, exec (.idregNewStd t a) s = .next s₁ ∧
        exec (.idregWithRtr d (.name t) r) s₁ = .next s₂ ∧
        s₂.read d = some (.idReg ⟨if b then 0x00100000 else 0, x.setWidth 32 <<< 18⟩)) ∧
  (∀ (s : State) (t d : Nat) (a r : Operand) (x : Word) (b : Bool), s.read t = none →
    s.read d = none → t ≠ d → s.resolve a = .ok (.extId x) → x.toNat ≤ 0x1FFFFFFF →
    s.resolve r = .ok (.bool b) →
      (Line.frameExt d a r).expand t =
        [encode (.idregNewExt t a), encode (.idregWithRtr d (.name t) r)] ∧
      ∃ s₁ s₂, exec (.idregNewExt t a) s = .next s₁ ∧
        exec (.idregWithRtr d (.name t) r) s₁ = .next s₂ ∧
        s₂.read d = some (.idReg ⟨(if s.config.srrOnExt then 0x00600000 else 0x00200000) |||
          (if b then 0x00100000 else 0), x⟩)) ∧
  (∀ t d : Nat,
    (Line.stdZero d).expand t = [encode (.stdNewUnchecked d (.lit (.u16 0x000)))] ∧
    (Line.stdMax d).expand t = [encode (.stdNewUnchecked d (.lit (.u16 0x7FF)))] ∧
    (Line.extZero d).expand t = [encode (.extNewUnchecked d (.lit (.u32 0x00000000)))] ∧
    (Line.extMax d).expand t = [encode (.extNewUnchecked d (.lit (.u32 0x1FFFFFFF)))]) ∧
  (∀ (text : List String) (ls : List Line), parseLines text = .ok ls →
    assemble text = .ok (expandProgram ls)) ∧
  (∀ ls : List Line, ∃ vT : Nat → Nat, (∀ k, vT k = freshName ls + k) ∧
    (∀ j k, j ≠ k → vT j ≠ vT k) ∧ (∀ l ∈ ls, ∀ n ∈ lineNames l, ∀ k, vT k ≠ n) ∧
    expandProgram ls = ls.zipIdx.flatMap fun p => p.1.expand (vT p.2))
end

