-- ==== Sys2Proof/Laws/State.lean ====
section
/-! SUPPORT. One lemma per field per update of the state. -/

namespace Sys2Proof.Machine

variable (s : State) (n : Nat) (v : Value) (info : FaultInfo) (prog : List Frame)

@[simp] theorem State.complete_agent : (s.complete n v).agent = s.agent := rfl
@[simp] theorem State.complete_agents : (s.complete n v).agents = s.agents := rfl
@[simp] theorem State.complete_turns : (s.complete n v).turns = s.turns := rfl
@[simp] theorem State.complete_config : (s.complete n v).config = s.config := rfl
@[simp] theorem State.complete_program : (s.complete n v).program = s.program := rfl
@[simp] theorem State.complete_index : (s.complete n v).index = s.index + 1 := rfl
@[simp] theorem State.complete_bindings :
    (s.complete n v).bindings = bindName n v s.bindings := rfl
@[simp] theorem State.complete_faultRecord : (s.complete n v).faultRecord = s.faultRecord := rfl

@[simp] theorem State.raise_agent : (s.raise info).agent = s.agent := rfl
@[simp] theorem State.raise_agents : (s.raise info).agents = s.agents := rfl
@[simp] theorem State.raise_turns : (s.raise info).turns = s.turns := rfl
@[simp] theorem State.raise_config : (s.raise info).config = s.config := rfl
@[simp] theorem State.raise_program : (s.raise info).program = s.program := rfl
@[simp] theorem State.raise_index : (s.raise info).index = s.index := rfl
@[simp] theorem State.raise_bindings : (s.raise info).bindings = s.bindings := rfl
@[simp] theorem State.raise_faultRecord :
    (s.raise info).faultRecord =
      s.faultRecord.or (some { index := s.index, info := info }) := rfl

@[simp] theorem State.load_agent : (s.load prog).agent = s.agent := rfl
@[simp] theorem State.load_agents : (s.load prog).agents = s.agents := rfl
@[simp] theorem State.load_turns : (s.load prog).turns = s.turns := rfl
@[simp] theorem State.load_config : (s.load prog).config = s.config := rfl
@[simp] theorem State.load_program : (s.load prog).program = prog := rfl
@[simp] theorem State.load_index : (s.load prog).index = 0 := rfl
@[simp] theorem State.load_bindings : (s.load prog).bindings = [] := rfl
@[simp] theorem State.load_faultRecord : (s.load prog).faultRecord = none := rfl

@[simp] theorem State.load_toAgentState : (s.load prog).toAgentState = AgentState.start prog := rfl

@[simp] theorem State.reset_agent : State.reset.agent = 0 := rfl
@[simp] theorem State.reset_agents : State.reset.agents = [] := rfl
@[simp] theorem State.reset_turns : State.reset.turns = [] := rfl
@[simp] theorem State.reset_config : State.reset.config = Config.specDefault := rfl
@[simp] theorem State.reset_program : State.reset.program = [] := rfl
@[simp] theorem State.reset_index : State.reset.index = 0 := rfl
@[simp] theorem State.reset_bindings : State.reset.bindings = [] := rfl
@[simp] theorem State.reset_faultRecord : State.reset.faultRecord = none := rfl

end Sys2Proof.Machine
end

