-- ==== Sys2Proof/Laws/Bindings.lean ====
section
/-! SUPPORT. The laws of keyed lists and of bound names: reading after binding, the canonical form,
and what binding a name keeps. -/

namespace Sys2Proof.Machine

section Keyed

variable {α : Type} {n m k : Nat} {v w : α} {bs : List (Nat × α)}

/-- Reading the name just bound gives the value. -/
@[simp] theorem lookup_bindName_self : lookup n (bindName n v bs) = some v := by
  induction bs with
  | nil => simp [bindName, lookup]
  | cons p rest ih =>
    obtain ⟨k, w⟩ := p
    simp only [bindName]
    split
    · simp [lookup]
    · split
      · simp [lookup]
      · rename_i h; simp [lookup, h, ih]

/-- Binding a name leaves every other name as it was. -/
theorem lookup_bindName_of_ne (h : m ≠ n) : lookup m (bindName n v bs) = lookup m bs := by
  induction bs with
  | nil => simp [bindName, lookup, h]
  | cons p rest ih =>
    obtain ⟨k, w⟩ := p
    simp only [bindName]
    split
    · simp [lookup, h]
    · split
      · rename_i hk; subst hk; simp [lookup, h]
      · simp [lookup, ih]

@[simp] theorem rising_cons : rising ((k, w) :: bs) = risingFrom k bs := rfl

/-- Names above a bound rise. -/
theorem rising_of_risingFrom (h : risingFrom n bs = true) : rising bs = true := by
  cases bs with
  | nil => rfl
  | cons p rest =>
    simp only [risingFrom, Bool.and_eq_true] at h
    exact h.2

/-- Binding a name above a bound keeps the names rising above it. -/
theorem risingFrom_bindName (hk : k < n) (h : risingFrom k bs = true) :
    risingFrom k (bindName n v bs) = true := by
  induction bs generalizing k with
  | nil => simp [bindName, risingFrom, hk]
  | cons p rest ih =>
    obtain ⟨j, w⟩ := p
    simp only [risingFrom, Bool.and_eq_true, decide_eq_true_eq] at h
    simp only [bindName]
    split
    · rename_i hj; simp [risingFrom, hk, hj, h.2]
    · split
      · rename_i hj; subst hj; simp [risingFrom, hk, h.2]
      · simp [risingFrom, h.1, ih (k := j) (by omega) h.2]

/-- Binding a name keeps the canonical form. -/
theorem rising_bindName (h : rising bs = true) : rising (bindName n v bs) = true := by
  cases bs with
  | nil => rfl
  | cons p rest =>
    obtain ⟨k, w⟩ := p
    simp only [rising_cons] at h
    simp only [bindName]
    split
    · rename_i hk; simp [rising, risingFrom, hk, h]
    · split
      · rename_i hk; subst hk; exact h
      · exact risingFrom_bindName (by omega) h

/-- Binding a name that is unbound adds one entry. -/
theorem length_bindName (h : lookup n bs = none) :
    (bindName n v bs).length = bs.length + 1 := by
  induction bs with
  | nil => rfl
  | cons p rest ih =>
    obtain ⟨k, w⟩ := p
    simp only [lookup] at h
    split at h
    · cases h
    · rename_i hk
      simp only [bindName, hk, if_false]
      split <;> simp [ih h]

end Keyed

variable {n m : Nat} {v w : Value} {bs : List (Nat × Value)}

/-- Binding a value that meets its invariant keeps every bound value so. -/
theorem valuesOk_bindName (hv : v.ok = true) (h : valuesOk bs = true) :
    valuesOk (bindName n v bs) = true := by
  induction bs with
  | nil => simp [bindName, valuesOk, hv]
  | cons p rest ih =>
    obtain ⟨k, w⟩ := p
    simp only [valuesOk, Bool.and_eq_true] at h
    simp only [bindName]
    split
    · simp [valuesOk, hv, h]
    · split
      · simp [valuesOk, hv, h]
      · simp [valuesOk, h.1, ih h.2]

/-- A value read from bindings that meet their invariants meets its own. -/
theorem ok_of_lookup (h : valuesOk bs = true) (hn : lookup n bs = some v) : v.ok = true := by
  induction bs with
  | nil => cases hn
  | cons p rest ih =>
    obtain ⟨k, w⟩ := p
    simp only [valuesOk, Bool.and_eq_true] at h
    simp only [lookup] at hn
    split at hn
    · cases hn; exact h.1
    · exact ih h.2 hn

/-- A completed request's name holds its result. -/
@[simp] theorem State.read_complete_self (s : State) : (s.complete n v).read n = some v := by
  simp [State.read]

/-- A completed request leaves every other name as it was. -/
theorem State.read_complete_of_ne (s : State) (h : m ≠ n) :
    (s.complete n v).read m = s.read m := by
  simp [State.read, lookup_bindName_of_ne h]

/-- A fault changes no name. -/
@[simp] theorem State.read_raise (s : State) (info : FaultInfo) :
    (s.raise info).read n = s.read n := rfl

/-- A host program starts with no name bound. -/
@[simp] theorem State.read_load (s : State) (prog : List Frame) :
    (s.load prog).read n = none := rfl

@[simp] theorem State.read_reset : State.reset.read n = none := rfl

end Sys2Proof.Machine
end

