-- ==== Sys2Proof/Laws/Agents.lean ====
section
/-! SUPPORT. What a turn does: everything that yielding the port and turning over can do. -/

namespace Sys2Proof.Machine

variable {s t : State} {k : Nat} {o : Host.Outcome State Fault Refusal}

@[simp] theorem State.agentState_self : s.agentState s.agent = some s.toAgentState := by
  simp [State.agentState]

theorem State.agentState_of_ne (h : k ≠ s.agent) : s.agentState k = lookup k s.agents := by
  simp [State.agentState, h]

theorem State.yield_of_turns_nil (h : s.turns = []) : s.yield = s := by simp [State.yield, h]

/-- The turn of an agent that is there gives it the port. -/
theorem State.yield_of_present {h : AgentState} {rest : List Nat} (ht : s.turns = k :: rest)
    (hk : s.agentState k = some h) :
    s.yield = { toAgentState := h, config := s.config, agent := k,
                agents := bindName s.agent s.toAgentState s.agents, turns := rest } := by
  simp [State.yield, ht, hk]

/-- The turn of an agent that is not there is passed over. -/
theorem State.yield_of_absent {rest : List Nat} (ht : s.turns = k :: rest)
    (hk : s.agentState k = none) : s.yield = { s with turns := rest } := by
  simp [State.yield, ht, hk]

@[simp] theorem State.yield_config : s.yield.config = s.config := by
  unfold State.yield; split
  · rfl
  · split <;> rfl

/-- A turn is used up. -/
@[simp] theorem State.yield_turns : s.yield.turns = s.turns.tail := by
  unfold State.yield; split
  · simp_all
  · split <;> simp_all

/-- Yielding the port leaves every agent's host program as it is. -/
@[simp] theorem State.agentState_yield (j : Nat) : s.yield.agentState j = s.agentState j := by
  unfold State.yield
  split
  · rfl
  · split
    · rfl
    · rename_i k rest _ _ h hk
      by_cases hj : j = k
      · rw [hj, hk]; simp [State.agentState]
      · by_cases hs : j = s.agent
        · rw [hs] at hj ⊢; simp [State.agentState, hj]
        · simp [State.agentState, hj, hs, lookup_bindName_of_ne hs]

@[simp] theorem State.turnOver_of_turns_nil (h : s.turns = []) : s.turnOver o = o := by
  simp [State.turnOver, h]

/-- Everything turning over can do when another turn is left. -/
theorem State.turnOver_of_turns (h : s.turns ≠ []) :
    s.turnOver o = .next (match o with
      | .next t => t.yield
      | .fault _ => s.yield
      | .refused _ => s.yield) := by
  cases hs : s.turns with
  | nil => exact absurd hs h
  | cons k rest => cases o <;> simp [State.turnOver, hs]

end Sys2Proof.Machine
end

