-- ==== Sys2Proof/Laws/Codec.lean ====
section
/-! SUPPORT. The flag bits of the values the codec builds, and the small laws of comparisons.

To split on `ide x` or `rtr x`, use `rcases Bool.eq_false_or_eq_true (ide x) with h | h` and rewrite
with h: a `cases` or `generalize` on it compares it with every other flag in the goal by unfolding,
and is slow. Better still, state the fact for Booleans and Nats and instantiate it. -/

namespace Sys2Proof.Machine

variable (r : IdReg) (b c : Bool)

/-- Code bit 21 is IDE. -/
theorem getLsbD_code_21 : r.code.getLsbD 21 = ide r := rfl

/-- Code bit 20 is RTR. -/
theorem getLsbD_code_20 : r.code.getLsbD 20 = rtr r := rfl

/-- The masks as numbers (00_scope.md rule R8). -/
theorem ideMask_eq : ideMask = 0x00200000 := rfl
theorem srrMask_eq : srrMask = 0x00400000 := rfl
theorem rtrMask_eq : rtrMask = 0x00100000 := rfl

@[simp] theorem withRtr_id : (withRtr r b).id = r.id := rfl

/-- Setting RTR changes no other bit of the code word (42_idreg_codec.md rule R132). -/
theorem setRtr_getLsbD (code : Word) (i : Nat) (h : i ≠ rtrShift) :
    (setRtr code b).getLsbD i = code.getLsbD i := by
  have hm : rtrMask.getLsbD i = false := by
    simp only [rtrMask, BitVec.getLsbD_shiftLeft, BitVec.getLsbD_one]
    by_cases h1 : i < rtrShift
    · simp [h1]
    · have : ¬ (i - rtrShift = 0) := by omega
      simp [this]
  cases hc : code.getLsbD i <;> cases b <;> simp [setRtr, hm, hc]
  all_goals exact BitVec.lt_of_getLsbD hc

@[simp] theorem ide_withRtr : ide (withRtr r b) = ide r :=
  setRtr_getLsbD b r.code ideShift (by decide)

@[simp] theorem rtr_withRtr : rtr (withRtr r b) = b := by
  cases b <;> simp [rtr, withRtr, setRtr, rtrShift]

@[simp] theorem ide_newStd (x : Half) : ide (newStd x) = false := by simp [ide, newStd]

@[simp] theorem rtr_newStd (x : Half) : rtr (newStd x) = false := by simp [rtr, newStd]

@[simp] theorem ide_newExt (x : Word) : ide (newExt c x) = true := by
  cases c <;> simp [ide, newExt, ideShift, srrShift]

@[simp] theorem rtr_newExt (x : Word) : rtr (newExt c x) = false := by
  cases c <;> simp [rtr, newExt, rtrShift, ideShift, srrShift]

@[simp] theorem newExt_id (x : Word) : (newExt c x).id = x := by simp [newExt]

@[simp] theorem thenCmp_equal (t : ArbOrder) : thenCmp .equal t = t := rfl
@[simp] theorem thenCmp_less (t : ArbOrder) : thenCmp .less t = .less := rfl
@[simp] theorem thenCmp_greater (t : ArbOrder) : thenCmp .greater t = .greater := rfl

theorem invCmp_eq_greater {p q : Nat} : invCmp p q = .greater ↔ p < q := by
  unfold invCmp; split_ifs <;> simp_all

theorem invCmp_eq_equal {p q : Nat} : invCmp p q = .equal ↔ p = q := by
  unfold invCmp; split_ifs <;> simp_all; omega

theorem invCmp_eq_less {p q : Nat} : invCmp p q = .less ↔ q < p := by
  unfold invCmp; split_ifs <;> simp_all <;> omega

end Sys2Proof.Machine
end

