-- ==== Sys2Proof/Laws/Codes.lean ====
section
/-! SUPPORT. Select values, port bits and operand slots. -/

namespace Sys2Proof

open Sys2Proof.Machine

/-- An operation's select names it. -/
@[simp] theorem Op.ofSelect_select (op : Op) : Op.ofSelect op.select = some op := by
  cases op <;> rfl

/-- A select that names an operation is that operation's. -/
theorem Op.select_of_ofSelect {w : Select} {op : Op} (h : Op.ofSelect w = some op) :
    w = op.select := by
  have key : ∀ w : Select, ∀ op ∈ Op.ofSelect w, w = op.select := by decide
  exact key w op h

/-- The instruction built for an operation has that operation, the given name and the given slots. -/
theorem Op.instr_eq_some {op : Op} {d : Nat} {slots : List Operand} {i : Instr}
    (h : op.instr d slots = some i) : i.op = op ∧ i.dst = d ∧ i.operands = slots := by
  have none : ∀ {i j : Instr} {os : List Operand}, withNone i os = some j → os = [] ∧ j = i := by
    intro i j os h; unfold withNone at h; split at h <;> simp_all
  have one : ∀ {mk : Operand → Instr} {j : Instr} {os : List Operand},
      withOne mk os = some j → ∃ a, os = [a] ∧ j = mk a := by
    intro mk j os h; unfold withOne at h; split at h <;> simp_all
  have two : ∀ {mk : Operand → Operand → Instr} {j : Instr} {os : List Operand},
      withTwo mk os = some j → ∃ a b, os = [a, b] ∧ j = mk a b := by
    intro mk j os h; unfold withTwo at h; split at h <;> simp_all
  cases op <;> simp only [Op.instr] at h <;>
    first
    | (obtain ⟨rfl, rfl⟩ := none h; exact ⟨rfl, rfl, rfl⟩)
    | (obtain ⟨a, rfl, rfl⟩ := one h; exact ⟨rfl, rfl, rfl⟩)
    | (obtain ⟨a, b, rfl, rfl⟩ := two h; exact ⟨rfl, rfl, rfl⟩)

/-- Zero bits give one literal per slot and no slot more. -/
theorem length_slotsOfBits_zero (ts : List ValueType) : (slotsOfBits ts 0).length = ts.length := by
  induction ts with
  | nil => rfl
  | cons t ts ih => simp [slotsOfBits, Nat.zero_div, ih]

/-- A value's bits are below two to its type's width. -/
theorem Value.bits_lt (v : Value) : v.bits < 2 ^ v.type.width := by
  cases v with
  | bool b => cases b <;> decide
  | id i =>
    cases i <;> simp only [bits, type, ValueType.width, CanId.tag, CanId.val] <;> omega
  | optStd o => cases o <;> simp only [bits, type, ValueType.width] <;> omega
  | optExt o => cases o <;> simp only [bits, type, ValueType.width] <;> omega
  | ordering o => cases o <;> decide
  | _ => simp only [bits, type, ValueType.width]; omega

/-- Reading a value's bits back gives the value, whatever stands in the bits above them. -/
theorem Value.ofBits_bits (v : Value) (rest : Nat) :
    Value.ofBits v.type (v.bits + 2 ^ v.type.width * rest) = v := by
  have h16 : ∀ (x : Half) (k : Nat), BitVec.ofNat 16 (x.toNat + 2 ^ 16 * k) = x := by
    intro x k; apply BitVec.eq_of_toNat_eq; rw [BitVec.toNat_ofNat]; omega
  have h32 : ∀ (x : Word) (k : Nat), BitVec.ofNat 32 (x.toNat + 2 ^ 32 * k) = x := by
    intro x k; apply BitVec.eq_of_toNat_eq; rw [BitVec.toNat_ofNat]; omega
  cases v with
  | u16 x => simp only [ofBits, type, bits, ValueType.width, h16]
  | u32 x => simp only [ofBits, type, bits, ValueType.width, h32]
  | bool b =>
    cases b <;> simp only [ofBits, type, bits, ValueType.width, Value.bool.injEq, beq_eq_false_iff_ne,
      beq_iff_eq, Bool.toNat_false, Bool.toNat_true]
    all_goals omega
  | stdId x => simp only [ofBits, type, bits, ValueType.width, h16]
  | extId x => simp only [ofBits, type, bits, ValueType.width, h32]
  | id i =>
    have hx : ∀ (x : Word) (g : Nat),
        BitVec.ofNat 32 (g * 2 ^ 32 + x.toNat + 2 ^ 33 * rest) = x := by
      intro x g
      rw [show g * 2 ^ 32 + x.toNat + 2 ^ 33 * rest = x.toNat + 2 ^ 32 * (g + 2 * rest) by omega]
      exact h32 x _
    cases i with
    | standard x =>
      change (if (0 * 2 ^ 32 + x.toNat + 2 ^ 33 * rest) / 2 ^ 32 % 2 = 0 then _ else _) = _
      rw [if_pos (by omega)]
      exact congrArg (Value.id ∘ CanId.standard) (hx x 0)
    | extended x =>
      change (if (1 * 2 ^ 32 + x.toNat + 2 ^ 33 * rest) / 2 ^ 32 % 2 = 0 then _ else _) = _
      rw [if_neg (by omega)]
      exact congrArg (Value.id ∘ CanId.extended) (hx x 1)
  | idReg r =>
    obtain ⟨c, i⟩ := r
    change Value.idReg ⟨BitVec.ofNat 32 ((c.toNat * 2 ^ 32 + i.toNat + 2 ^ 64 * rest) / 2 ^ 32),
      BitVec.ofNat 32 (c.toNat * 2 ^ 32 + i.toNat + 2 ^ 64 * rest)⟩ = _
    rw [show (c.toNat * 2 ^ 32 + i.toNat + 2 ^ 64 * rest) / 2 ^ 32 = c.toNat + 2 ^ 32 * rest by omega,
      show c.toNat * 2 ^ 32 + i.toNat + 2 ^ 64 * rest
        = i.toNat + 2 ^ 32 * (c.toNat + 2 ^ 32 * rest) by omega, h32, h32]
  | optStd o =>
    cases o with
    | none =>
      change Value.optStd (if (0 + 2 ^ 17 * rest) / 2 ^ 16 % 2 = 0 then _ else _) = _
      rw [if_pos (by omega)]
    | some x =>
      change Value.optStd (if (2 ^ 16 + x.toNat + 2 ^ 17 * rest) / 2 ^ 16 % 2 = 0 then _ else
        some (BitVec.ofNat 16 (2 ^ 16 + x.toNat + 2 ^ 17 * rest))) = _
      rw [if_neg (by omega), show 2 ^ 16 + x.toNat + 2 ^ 17 * rest
        = x.toNat + 2 ^ 16 * (1 + 2 * rest) by omega, h16]
  | optExt o =>
    cases o with
    | none =>
      change Value.optExt (if (0 + 2 ^ 33 * rest) / 2 ^ 32 % 2 = 0 then _ else _) = _
      rw [if_pos (by omega)]
    | some x =>
      change Value.optExt (if (2 ^ 32 + x.toNat + 2 ^ 33 * rest) / 2 ^ 32 % 2 = 0 then _ else
        some (BitVec.ofNat 32 (2 ^ 32 + x.toNat + 2 ^ 33 * rest))) = _
      rw [if_neg (by omega), show 2 ^ 32 + x.toNat + 2 ^ 33 * rest
        = x.toNat + 2 ^ 32 * (1 + 2 * rest) by omega, h32]
  | ordering o =>
    cases o with
    | less =>
      change Value.ordering (if (3 + 4 * rest) % 4 = 3 then _ else _) = _
      rw [if_pos (by omega)]
    | equal =>
      change Value.ordering (if (0 + 4 * rest) % 4 = 3 then _ else if (0 + 4 * rest) % 4 = 1 then _
        else _) = _
      rw [if_neg (by omega), if_neg (by omega)]
    | greater =>
      change Value.ordering (if (1 + 4 * rest) % 4 = 3 then _ else if (1 + 4 * rest) % 4 = 1 then _
        else _) = _
      rw [if_neg (by omega), if_pos (by omega)]

end Sys2Proof
end

