-- ==== Sys2Proof/Laws/PerInstr.lean ====
section
/-! SUPPORT. Statements made per instruction.

`EncodeRow`: an instruction's line selects its own row of opcode_table.json and has as many operand
slots as the row (30_encoding.md rules R63 and R70). -/

namespace Sys2Proof.Laws.EncodeRow

/-- The line of an instruction names its row and fills its slots. -/
def Statement (i : Instr) : Prop :=
  Op.ofSelect (encode i).select = some i.op ∧ (encode i).slots.length = i.op.slotTypes.length

theorem stdNew (d : Nat) (a : Operand) : Statement (.stdNew d a) := ⟨rfl, rfl⟩

theorem stdNewUnchecked (d : Nat) (a : Operand) : Statement (.stdNewUnchecked d a) := ⟨rfl, rfl⟩

theorem stdAsRaw (d : Nat) (a : Operand) : Statement (.stdAsRaw d a) := ⟨rfl, rfl⟩

theorem extNew (d : Nat) (a : Operand) : Statement (.extNew d a) := ⟨rfl, rfl⟩

theorem extNewUnchecked (d : Nat) (a : Operand) : Statement (.extNewUnchecked d a) := ⟨rfl, rfl⟩

theorem extAsRaw (d : Nat) (a : Operand) : Statement (.extAsRaw d a) := ⟨rfl, rfl⟩

theorem extStandardId (d : Nat) (a : Operand) : Statement (.extStandardId d a) := ⟨rfl, rfl⟩

theorem idFromStd (d : Nat) (a : Operand) : Statement (.idFromStd d a) := ⟨rfl, rfl⟩

theorem idFromExt (d : Nat) (a : Operand) : Statement (.idFromExt d a) := ⟨rfl, rfl⟩

theorem idDefault (d : Nat) : Statement (.idDefault d) := ⟨rfl, rfl⟩

theorem idAsRaw (d : Nat) (a : Operand) : Statement (.idAsRaw d a) := ⟨rfl, rfl⟩

theorem idregNewStd (d : Nat) (a : Operand) : Statement (.idregNewStd d a) := ⟨rfl, rfl⟩

theorem idregNewExt (d : Nat) (a : Operand) : Statement (.idregNewExt d a) := ⟨rfl, rfl⟩

theorem idregWithRtr (d : Nat) (a b : Operand) : Statement (.idregWithRtr d a b) := ⟨rfl, rfl⟩

theorem idregIsExt (d : Nat) (a : Operand) : Statement (.idregIsExt d a) := ⟨rfl, rfl⟩

theorem idregIsStd (d : Nat) (a : Operand) : Statement (.idregIsStd d a) := ⟨rfl, rfl⟩

theorem idregRtr (d : Nat) (a : Operand) : Statement (.idregRtr d a) := ⟨rfl, rfl⟩

theorem idregToId (d : Nat) (a : Operand) : Statement (.idregToId d a) := ⟨rfl, rfl⟩

theorem idregCmp (d : Nat) (a b : Operand) : Statement (.idregCmp d a b) := ⟨rfl, rfl⟩

theorem idregEq (d : Nat) (a b : Operand) : Statement (.idregEq d a b) := ⟨rfl, rfl⟩

end Sys2Proof.Laws.EncodeRow
end

