-- ==== Sys2Proof/Laws/Requests.lean ====
section
/-! SUPPORT. What reading a slot and presenting a request can do. -/

namespace Sys2Proof.Machine

variable {s t : State} {d : Nat} {a b : Operand} {va vb v : Value}

theorem asU16_eq_some {x : Half} : asU16 v = some x ↔ v = .u16 x := by cases v <;> simp [asU16]

theorem asU32_eq_some {x : Word} : asU32 v = some x ↔ v = .u32 x := by cases v <;> simp [asU32]

theorem asBool_eq_some {x : Bool} : asBool v = some x ↔ v = .bool x := by
  cases v <;> simp [asBool]

theorem asIdReg_eq_some {x : IdReg} : asIdReg v = some x ↔ v = .idReg x := by
  cases v <;> simp [asIdReg]

theorem asStdId_eq_some {x : Half} :
    asStdId v = some x ↔ v = .stdId x ∧ x.toNat ≤ stdMax := by
  cases v <;> simp [asStdId]
  constructor
  · rintro ⟨h, rfl⟩; exact ⟨rfl, h⟩
  · rintro ⟨rfl, h⟩; exact ⟨h, rfl⟩

theorem asExtId_eq_some {x : Word} :
    asExtId v = some x ↔ v = .extId x ∧ x.toNat ≤ extMax := by
  cases v <;> simp [asExtId]
  constructor
  · rintro ⟨h, rfl⟩; exact ⟨rfl, h⟩
  · rintro ⟨rfl, h⟩; exact ⟨h, rfl⟩

theorem asId_eq_some {x : CanId} : asId v = some x ↔ v = .id x ∧ x.ok = true := by
  cases v <;> simp [asId]
  constructor
  · rintro ⟨h, rfl⟩; exact ⟨rfl, h⟩
  · rintro ⟨rfl, h⟩; exact ⟨h, rfl⟩

/-- An operand that is a literal presents it. -/
@[simp] theorem State.resolve_lit : s.resolve (.lit v) = .ok v := rfl

/-- A bound name presents its value. -/
theorem State.resolve_name {n : Nat} (h : s.read n = some v) : s.resolve (.name n) = .ok v := by
  simp [State.resolve, h]

/-- An unbound name refuses the line. -/
theorem State.resolve_unbound {n : Nat} (h : s.read n = none) :
    s.resolve (.name n) = .error (.unboundName n) := by
  simp [State.resolve, h]

/-- An accepted request's next state: completed with its result, or faulted. -/
theorem State.answer_next {r : Except FaultInfo Value} (h : s.answer d r = .next t) :
    (∃ v, r = .ok v ∧ t = s.complete d v) ∨ (∃ f, r = .error f ∧ t = s.raise f) := by
  cases r with
  | ok v => exact .inl ⟨v, rfl, by simpa [State.answer] using h.symm⟩
  | error f => exact .inr ⟨f, rfl, by simpa [State.answer] using h.symm⟩

@[simp] theorem State.answer_ok : s.answer d (.ok v) = .next (s.complete d v) := rfl

@[simp] theorem State.answer_error {f : FaultInfo} : s.answer d (.error f) = .next (s.raise f) := rfl

theorem State.request0_of_unbound {r : Except FaultInfo Value} (hd : s.read d = none) :
    s.request0 d r = s.answer d r := by
  simp [State.request0, hd]

/-- Everything a request with no operand can do when it answers a next state. -/
theorem State.request0_next {r : Except FaultInfo Value} (h : s.request0 d r = .next t) :
    s.read d = none ∧ s.answer d r = .next t := by
  simp only [State.request0] at h
  split at h
  · cases h
  · exact ⟨‹_›, h⟩

section One

variable {α : Type} {slot : Value → Option α} {run : α → Except FaultInfo Value} {x : α}

theorem State.request1_of_slot (hd : s.read d = none) (ha : s.resolve a = .ok va)
    (hx : slot va = some x) : s.request1 d a slot run = s.answer d (run x) := by
  simp [State.request1, hd, ha, hx]

/-- Everything a request with one operand can do when it answers a next state. -/
theorem State.request1_next (h : s.request1 d a slot run = .next t) :
    s.read d = none ∧ ∃ va x, s.resolve a = .ok va ∧ slot va = some x ∧
      s.answer d (run x) = .next t := by
  simp only [State.request1] at h
  split at h
  · cases h
  · split at h
    · cases h
    · split at h
      · cases h
      · exact ⟨‹_›, _, _, ‹_›, ‹_›, h⟩

end One

section Two

variable {α β : Type} {slotA : Value → Option α} {slotB : Value → Option β}
  {run : α → β → Except FaultInfo Value} {x : α} {y : β}

theorem State.request2_of_slots (hd : s.read d = none) (ha : s.resolve a = .ok va)
    (hb : s.resolve b = .ok vb) (hx : slotA va = some x) (hy : slotB vb = some y) :
    s.request2 d a b slotA slotB run = s.answer d (run x y) := by
  simp [State.request2, hd, ha, hb, hx, hy]

/-- Everything a request with two operands can do when it answers a next state. -/
theorem State.request2_next (h : s.request2 d a b slotA slotB run = .next t) :
    s.read d = none ∧ ∃ va vb x y, s.resolve a = .ok va ∧ s.resolve b = .ok vb ∧
      slotA va = some x ∧ slotB vb = some y ∧ s.answer d (run x y) = .next t := by
  simp only [State.request2] at h
  split at h
  · cases h
  · split at h
    · cases h
    · split at h
      · cases h
      · split at h
        · exact ⟨‹_›, _, _, _, _, ‹_›, ‹_›, ‹_›, ‹_›, h⟩
        · cases h

end Two

end Sys2Proof.Machine
end

