-- ==== Sys2Proof/Tests/Slice0.lean ====
section
/-! SUPPORT. The model's own tests. An expected result comes from the spec: 95_test_vectors.md where
a section is named, else the rule named. `wit_` theorems show that the hypotheses of the statement
they name can be met together, at a boundary value for each clause. -/

namespace Sys2Proof.Tests

open Sys2Proof Sys2Proof.Machine

/-- The state after loading one line with operands. -/
def one (sel : Select) (slots : List Operand) : State :=
  State.reset.load [{ dst := 0, select := sel, slots := slots }]

/-- The same with SRR_ON_EXT = true. -/
def oneSrr (sel : Select) (slots : List Operand) : State :=
  { one sel slots with config := { srrOnExt := true } }

/-- What the step left in the name v0. -/
def result : Host.Outcome State Fault Refusal → Option Value
  | .next s => s.read 0
  | .fault _ => none
  | .refused _ => none

/-- The fault record the step left. -/
def recorded : Host.Outcome State Fault Refusal → Option FaultRecord
  | .next s => s.faultRecord
  | .fault _ => none
  | .refused _ => none

/-- The refusal the step stopped with. -/
def refusal : Host.Outcome State Fault Refusal → Option Refusal
  | .next _ => none
  | .fault _ => none
  | .refused r => some r

/-- A host program part of the way through: v0 to v3 hold a present and an absent option of each
kind, and the line at index 4 is the given one. -/
def midway (f : Frame) : State :=
  { State.reset with
    program := [⟨0, 0x01, [.lit (.u16 0x7FF)]⟩, ⟨1, 0x01, [.lit (.u16 0x800)]⟩,
      ⟨2, 0x04, [.lit (.u32 0x1FFFFFFF)]⟩, ⟨3, 0x04, [.lit (.u32 0x20000000)]⟩, f]
    index := 4
    bindings := [(0, .optStd (some 0x7FF)), (1, .optStd none), (2, .optExt (some 0x1FFFFFFF)),
      (3, .optExt none)] }

def std (x : Half) : Operand := .lit (.stdId x)
def ext (x : Word) : Operand := .lit (.extId x)
def reg (c i : Word) : Operand := .lit (.idReg ⟨c, i⟩)

/-! ### Well-formedness and masks -/

/-- Rule R70: a literal of another type than the slot's. -/
theorem test_ill_formed_type : (Instr.stdNew 0 (reg 0 0)).wf = false := by decide

/-- Rule R70: a StdId, an ExtId and an Id out of range. -/
theorem test_ill_formed_range : (Instr.idregNewStd 0 (std 0x800)).wf = false ∧
    (Instr.extAsRaw 0 (ext 0x20000000)).wf = false ∧
    (Instr.idAsRaw 0 (.lit (.id (.standard 0x1000)))).wf = false := by decide

/-- Rule R74: an unwrap yields a StdId or an ExtId, no IdReg. -/
theorem test_ill_formed_unwrap : (Instr.idregRtr 0 (.unwrap 3)).wf = false := by decide

theorem test_well_formed : (Instr.idregNewStd 0 (std 0x7FF)).wf = true ∧
    (Instr.extAsRaw 0 (.unwrap 3)).wf = true ∧ (Instr.idregCmp 9 (.name 2) (reg 0 0)).wf = true := by
  decide

/-- The masks as 00_scope.md rule R8 writes them. -/
theorem test_masks : srrMask = 0x00400000 ∧ ideMask = 0x00200000 ∧ rtrMask = 0x00100000 ∧
    dlcMask = 0x000F0000 ∧ timestampMask = 0x0000FFFF ∧ reservedCodeMask = 0xFF800000 ∧
    stdIdMask = 0x1FFC0000 ∧ extIdMask = 0x1FFFFFFF ∧ idHighMask = 0xE0000000 := by decide

/-! ### Decoding: one request per row, written out from the select values of rule R63 -/

theorem test_decode_std_new : decodeWord 0 0x07FF_01 = .ok (.stdNew 0 (.lit (.u16 0x7FF))) := rfl

theorem test_decode_std_new_unchecked :
    decodeWord 0 0x0800_02 = .ok (.stdNewUnchecked 0 (.lit (.u16 0x800))) := rfl

theorem test_decode_std_as_raw : decodeWord 0 0x0123_03 = .ok (.stdAsRaw 0 (std 0x123)) := rfl

theorem test_decode_ext_new :
    decodeWord 0 0x20000000_04 = .ok (.extNew 0 (.lit (.u32 0x20000000))) := rfl

theorem test_decode_ext_new_unchecked :
    decodeWord 0 0x12345678_05 = .ok (.extNewUnchecked 0 (.lit (.u32 0x12345678))) := rfl

theorem test_decode_ext_as_raw :
    decodeWord 0 0x12345678_06 = .ok (.extAsRaw 0 (ext 0x12345678)) := rfl

theorem test_decode_ext_standard_id :
    decodeWord 0 0x1FFFFFFF_07 = .ok (.extStandardId 0 (ext 0x1FFFFFFF)) := rfl

theorem test_decode_id_from_std : decodeWord 0 0x07FF_08 = .ok (.idFromStd 0 (std 0x7FF)) := rfl

theorem test_decode_id_from_ext :
    decodeWord 0 0x00000001_09 = .ok (.idFromExt 0 (ext 0x00000001)) := rfl

theorem test_decode_id_default : decodeWord 0 0x0A = .ok (.idDefault 0) := rfl

theorem test_decode_id_as_raw :
    decodeWord 0 0x1_12345678_0B = .ok (.idAsRaw 0 (.lit (.id (.extended 0x12345678)))) ∧
    decodeWord 0 0x0_000007FF_0B = .ok (.idAsRaw 0 (.lit (.id (.standard 0x7FF)))) := ⟨rfl, rfl⟩

theorem test_decode_idreg_new_std : decodeWord 0 0x0005_10 = .ok (.idregNewStd 0 (std 5)) := rfl

theorem test_decode_idreg_new_ext :
    decodeWord 0 0x04000000_11 = .ok (.idregNewExt 0 (ext 0x04000000)) := rfl

theorem test_decode_idreg_with_rtr :
    decodeWord 0 0x1_00081234_00140000_12 =
      .ok (.idregWithRtr 0 (reg 0x00081234 0x00140000) (.lit (.bool true))) := rfl

theorem test_decode_idreg_is_ext :
    decodeWord 0 0xFFDFFFFF_FFFFFFFF_13 = .ok (.idregIsExt 0 (reg 0xFFDFFFFF 0xFFFFFFFF)) := rfl

theorem test_decode_idreg_is_std :
    decodeWord 0 0x00100000_00140000_14 = .ok (.idregIsStd 0 (reg 0x00100000 0x00140000)) := rfl

theorem test_decode_idreg_rtr :
    decodeWord 0 0x00300000_00000000_15 = .ok (.idregRtr 0 (reg 0x00300000 0)) := rfl

theorem test_decode_idreg_to_id :
    decodeWord 0 0x00200000_20000000_16 = .ok (.idregToId 0 (reg 0x00200000 0x20000000)) := rfl

theorem test_decode_idreg_cmp :
    decodeWord 0 0x00200000_12345678_00100000_12340000_17 =
      .ok (.idregCmp 0 (reg 0x00100000 0x12340000) (reg 0x00200000 0x12345678)) := rfl

theorem test_decode_idreg_eq :
    decodeWord 0 0x00000000_00140000_00081234_00140000_18 =
      .ok (.idregEq 0 (reg 0x00081234 0x00140000) (reg 0 0x00140000)) := rfl

/-- 95_test_vectors.md section 2.8: reserved selects; and section 2.8's broken operands. -/
theorem test_decode_refuses :
    decodeWord 0 0x00 = .error .reservedOp ∧ decodeWord 0 0x0C = .error .reservedOp ∧
    decodeWord 0 0x0F = .error .reservedOp ∧ decodeWord 0 0x19 = .error .reservedOp ∧
    decodeWord 0 0xFF = .error .reservedOp ∧ decodeWord 0 0x0800_10 = .error .operandType ∧
    decodeWord 0 0x0_00001000_0B = .error .operandType ∧
    decode ⟨0, 0x17, [reg 0 0]⟩ = .error .operandType ∧
    decode ⟨0, 0x01, [reg 0 0]⟩ = .error .operandType :=
  ⟨rfl, rfl, rfl, rfl, rfl, rfl, rfl, rfl, rfl⟩

/-- The bits a short request does not have are zeros (log 11). -/
theorem test_decode_short_request : decodeTableWord 8 0x17 = some (.idregCmp 0 (reg 0 0) (reg 0 0)) :=
  rfl

/-- Bits above the last slot are a slot too many (log 11). -/
theorem test_decode_refuses_extra_bits : decodeWord 0 0x1_0A = .error .operandType ∧
    decodeWord 0 0x1_0005_10 = .error .operandType := ⟨rfl, rfl⟩

/-! ### One step of each operation, 95_test_vectors.md sections 2.1 to 2.7 -/

theorem test_std_new : result (step (one 0x01 [.lit (.u16 0x07FF)])) = some (.optStd (some 0x7FF)) ∧
    result (step (one 0x01 [.lit (.u16 0x0800)])) = some (.optStd none) := by decide

theorem test_std_new_unchecked :
    result (step (one 0x02 [.lit (.u16 0x07FF)])) = some (.stdId 0x7FF) := by decide

theorem test_std_new_unchecked_fault : recorded (step (one 0x02 [.lit (.u16 0x0800)])) =
    some ⟨0, .uncheckedStdRange 0x0800⟩ ∧ faultCode (.uncheckedStdRange 0x0800) = 1 := by decide

theorem test_std_as_raw : result (step (one 0x03 [std 0x7FF])) = some (.u16 0x07FF) := by decide

theorem test_ext_new :
    result (step (one 0x04 [.lit (.u32 0x1FFFFFFF)])) = some (.optExt (some 0x1FFFFFFF)) ∧
    result (step (one 0x04 [.lit (.u32 0x20000000)])) = some (.optExt none) := by decide

theorem test_ext_new_unchecked :
    result (step (one 0x05 [.lit (.u32 0x12345678)])) = some (.extId 0x12345678) := by decide

theorem test_ext_new_unchecked_fault : recorded (step (one 0x05 [.lit (.u32 0x20000000)])) =
    some ⟨0, .uncheckedExtRange 0x20000000⟩ ∧ faultCode (.uncheckedExtRange 0x20000000) = 2 := by
  decide

theorem test_ext_as_raw : result (step (one 0x06 [ext 0x12345678])) = some (.u32 0x12345678) := by
  decide

theorem test_ext_standard_id : result (step (one 0x07 [ext 0x12345678])) = some (.stdId 0x48D) ∧
    result (step (one 0x07 [ext 0x1FFC0000])) = some (.stdId 0x7FF) := by decide

theorem test_ext_standard_id_drops_low_bits :
    result (step (one 0x07 [ext 0x0003FFFF])) = some (.stdId 0x000) ∧
    result (step (one 0x07 [ext 0x00040000])) = some (.stdId 0x001) := by decide

theorem test_id_from_std :
    result (step (one 0x08 [std 0x7FF])) = some (.id (.standard 0x000007FF)) := by decide

theorem test_id_from_ext :
    result (step (one 0x09 [ext 0x1FFFFFFF])) = some (.id (.extended 0x1FFFFFFF)) ∧
    result (step (one 0x09 [ext 0])) ≠ result (step (one 0x0A [])) := by decide

theorem test_id_default : result (step (one 0x0A [])) = some (.id (.standard 0)) := by decide

theorem test_id_as_raw : result (step (one 0x0B [.lit (.id (.standard 0x123))])) = some (.u32 0x123) ∧
    result (step (one 0x0B [.lit (.id (.extended 0x12345678))])) = some (.u32 0x12345678) := by
  decide

theorem test_idreg_new_std :
    result (step (one 0x10 [std 0x005])) = some (.idReg ⟨0x00000000, 0x00140000⟩) ∧
    result (step (one 0x10 [std 0x7FF])) = some (.idReg ⟨0x00000000, 0x1FFC0000⟩) := by decide

theorem test_idreg_new_ext :
    result (step (one 0x11 [ext 0x12345678])) = some (.idReg ⟨0x00200000, 0x12345678⟩) ∧
    result (step (oneSrr 0x11 [ext 0x12345678])) = some (.idReg ⟨0x00600000, 0x12345678⟩) := by
  decide

theorem test_idreg_with_rtr :
    result (step (one 0x12 [reg 0x00081234 0x00140000, .lit (.bool true)])) =
      some (.idReg ⟨0x00181234, 0x00140000⟩) ∧
    result (step (one 0x12 [reg 0xFFFFFFFF 0x00000005, .lit (.bool false)])) =
      some (.idReg ⟨0xFFEFFFFF, 0x00000005⟩) := by decide

theorem test_idreg_is_ext : result (step (one 0x13 [reg 0x00200000 0])) = some (.bool true) ∧
    result (step (one 0x13 [reg 0xFFDFFFFF 0xFFFFFFFF])) = some (.bool false) := by decide

theorem test_idreg_is_std :
    result (step (one 0x14 [reg 0x00100000 0x00140000])) = some (.bool true) ∧
    result (step (one 0x14 [reg 0x00200000 0])) = some (.bool false) := by decide

theorem test_idreg_rtr : result (step (one 0x15 [reg 0x00300000 0])) = some (.bool true) ∧
    result (step (one 0x15 [reg 0xFFEFFFFF 0])) = some (.bool false) := by decide

theorem test_idreg_to_id :
    result (step (one 0x16 [reg 0xFF9FFFFF 0x048C0000])) = some (.id (.standard 0x123)) ∧
    result (step (one 0x16 [reg 0x00600000 0x12345678])) = some (.id (.extended 0x12345678)) ∧
    result (step (one 0x16 [reg 0x00000000 0x1FFFFFFF])) = some (.id (.standard 0x7FF)) := by decide

theorem test_idreg_to_id_fault :
    recorded (step (one 0x16 [reg 0x00000000 0x20000000])) =
      some ⟨0, .decodeRange 0x00000000 0x20000000 none⟩ ∧
    recorded (step (one 0x16 [reg 0x00200000 0xE0000000])) =
      some ⟨0, .decodeRange 0x00200000 0xE0000000 none⟩ := by decide

/-- Rows C1, C4, C7, C9, C13, C20 and C24 of section 2.6. -/
theorem test_idreg_cmp :
    result (step (one 0x17 [reg 0 0x00140000, reg 0 0x00280000])) = some (.ordering .greater) ∧
    result (step (one 0x17 [reg 0x00100000 0x00140000, reg 0 0x00140000])) =
      some (.ordering .less) ∧
    result (step (one 0x17 [reg 0x00200000 0x100, reg 0x00300000 0x100])) =
      some (.ordering .greater) ∧
    result (step (one 0x17 [reg 0x00100000 0x12340000, reg 0x00200000 0x12345678])) =
      some (.ordering .greater) ∧
    result (step (one 0x17 [reg 0 0x12380000, reg 0x00200000 0x12345678])) =
      some (.ordering .less) ∧
    result (step (one 0x17 [reg 0x00200000 0x000007FF, reg 0 0x1FFC0000])) =
      some (.ordering .greater) ∧
    result (step (one 0x17 [reg 0x00081234 0x00140000, reg 0 0x00140000])) =
      some (.ordering .equal) := by decide

/-- Rows C27 and C28 of section 2.6. -/
theorem test_idreg_cmp_fault :
    recorded (step (one 0x17 [reg 0 0x00140000, reg 0 0xFFFFFFFF])) =
      some ⟨0, .decodeRange 0 0xFFFFFFFF (some .b)⟩ ∧
    recorded (step (one 0x17 [reg 0 0xFFFFFFFF, reg 0x00200000 0x20000000])) =
      some ⟨0, .decodeRange 0 0xFFFFFFFF (some .a)⟩ := by decide

theorem test_idreg_eq :
    result (step (one 0x18 [reg 0x00200000 0x20000000, reg 0x00200000 0x20000000])) =
      some (.bool true) ∧
    result (step (one 0x18 [reg 0x00081234 0x00140000, reg 0 0x00140000])) =
      some (.bool false) := by decide

/-- Keys of rows C8, C10, C16 and C18 of section 2.6. -/
theorem test_priority_key : priorityKey ⟨0, 0x12340000⟩ = 0x48D00000 ∧
    priorityKey ⟨0x00300000, 0x12345678⟩ = 0x48D8ACF1 ∧
    priorityKey ⟨0x00200000, 0x0003FFFF⟩ = 0x000FFFFE ∧
    priorityKey ⟨0x00200000, 0x1FFFFFFF⟩ = 0x7FFFFFFE := by decide

/-! ### The host program -/

/-- Section 3, P4 at index 2: the request faults, and the next step presents nothing (rule R176). -/
theorem test_fault_ends_program :
    step { midway ⟨4, 0x16, [reg 0x00200000 0x20000000]⟩ with
      faultRecord := some ⟨4, .decodeRange 0x00200000 0x20000000 none⟩ } =
    .fault (.programFaulted ⟨4, .decodeRange 0x00200000 0x20000000 none⟩) := rfl

/-- Section 3, P4: the unwrap of an absent option is refused (rule R74). -/
theorem test_unwrap_absent :
    refusal (step (midway ⟨4, 0x10, [.unwrap 1]⟩)) = some (.absentValue 1) := by decide

/-- Rules R22 and R74: an unbound name, a bound result name, an unwrap of no option. -/
theorem test_host_refusals :
    refusal (step (midway ⟨4, 0x0B, [.name 9]⟩)) = some (.unboundName 9) ∧
    refusal (step (midway ⟨0, 0x0A, []⟩)) = some (.nameAlreadyBound 0) ∧
    refusal (step { midway ⟨5, 0x10, [.unwrap 4]⟩ with bindings := [(4, .u16 5)] }) =
      some (.notAnOption 4) := by decide

/-- Rule R70: a name whose value has another type than the slot's. -/
theorem test_name_of_wrong_type :
    refusal (step (midway ⟨4, 0x10, [.name 0]⟩)) = some .operandType := by decide

/-- Section 3, P1 at index 2: the unwrapped identifier is encoded and bound beside the others. -/
theorem test_unwrap_present :
    step (midway ⟨4, 0x10, [.unwrap 0]⟩) =
      .next { midway ⟨4, 0x10, [.unwrap 0]⟩ with
        index := 5
        bindings := (midway ⟨4, 0x10, [.unwrap 0]⟩).bindings ++
          [(4, .idReg ⟨0, 0x1FFC0000⟩)] } := rfl

/-- The host's fetch of a request word runs it (log 12). -/
theorem test_with_fetch_word :
    result (step (State.reset.withFetchWord 24 0x0005_10)) =
      some (.idReg ⟨0x00000000, 0x00140000⟩) ∧
    result (step (State.reset.withFetchWord 8 0x0A)) = some (.id (.standard 0)) := by decide

/-- Rule R73: the bits of results. -/
theorem test_result_bits : (Value.optStd (some 0x7FF)).bits = 0x1_07FF ∧
    (Value.id (.extended 0x1FFFFFFF)).bits = 0x1_1FFFFFFF ∧
    (Value.idReg ⟨0x00200000, 0x12345678⟩).bits = 0x00200000_12345678 ∧
    (Value.ordering .less).bits = 0b11 ∧ (Value.ordering .greater).bits = 0b01 ∧
    (Value.ordering .equal).bits = 0b00 := by decide

/-- Rule R51: both byte orders of one word. -/
theorem test_word_bytes : wordToBytes .little 0x12345678 = [0x78, 0x56, 0x34, 0x12] ∧
    wordToBytes .big 0x12345678 = [0x12, 0x34, 0x56, 0x78] := by decide

/-- Rule R160: the arbitration bits of a standard data frame and their comparison. -/
theorem test_wire : wireBits (.standard 5) false =
      [false, false, false, false, false, false, false, false, true, false, true, false, false] ∧
    wireCmp (wireBits (.standard 0x48D) true) (wireBits (.extended 0x12345678) false) =
      .greater := by decide

/-- Two agents, each with names of its own. Agent 0's request faults at the port, with a turn of
agent 7 and then one of agent 0 to come. -/
def twoAgents : State :=
  { (one 0x02 [.lit (.u16 0x0800)]).addAgent 7
      [⟨0, 0x01, [.lit (.u16 0x07FF)]⟩, ⟨1, 0x10, [.name 5]⟩] with turns := [7, 0] }

/-- Rules R55 (b) and R176: agent 0's fault is recorded, and agent 7's request then completes. -/
theorem test_fault_leaves_other_agents :
    recorded (Sys2Proof.core.run 1 twoAgents) = none ∧
    result (Sys2Proof.core.run 1 twoAgents) = none ∧
    (match Sys2Proof.core.run 2 twoAgents with
      | .next t => (t.agentState 7).map (·.bindings) = some [(0, .optStd (some 0x7FF))] ∧
          (t.agentState 0).map (·.faultRecord) = some (some ⟨0, .uncheckedStdRange 0x0800⟩)
      | .fault _ => False
      | .refused _ => False) := ⟨rfl, rfl, rfl, rfl⟩

/-- Rules R55 (b) and R22: agent 7's refused line ends its program and not agent 0's. -/
theorem test_refusal_leaves_other_agents :
    (match step { twoAgents with
        agent := 7, program := [⟨0, 0x10, [.name 5]⟩], agents := [(0, twoAgents.toAgentState)]
        turns := [0] } with
      | .next t => t.agent = 0 ∧ t.toAgentState = twoAgents.toAgentState ∧
          (t.agentState 7).map (·.index) = some 0
      | .fault _ => False
      | .refused _ => False) := ⟨rfl, rfl, rfl⟩

/-! ### Assembly text (30_encoding.md rules R74 and R75; 95_test_vectors.md section 3) -/

theorem test_assemble_request :
    parseLine "v0 = STD_NEW #0x005  ; P1".toList =
      .ok (some (.request ⟨0, 0x01, [.lit (.u16 5)]⟩)) := by decide

theorem test_assemble_operands :
    parseLine "v2 = IDREG_EQ reg(#0x1F, #20), v1".toList =
      .ok (some (.request ⟨2, 0x18, [reg 0x1F 20, .name 1]⟩)) := by decide

theorem test_assemble_pseudo :
    assemble ["v2 = EXT_STANDARD_ID v0.val", "v3 = FRAME_STD v2, #true"] =
      .ok [⟨2, 0x07, [.unwrap 0]⟩, ⟨5, 0x10, [.name 2]⟩,
        ⟨3, 0x12, [.name 5, .lit (.bool true)]⟩] := by decide

/-- Two pseudo-operations take two fresh names (rule R75). -/
theorem test_assemble_fresh_names :
    expandProgram [.frameStd 0 (std 1) (.name 3), .frameExt 1 (ext 2) (.name 3)] =
      [⟨4, 0x10, [std 1]⟩, ⟨0, 0x12, [.name 4, .name 3]⟩,
        ⟨5, 0x11, [ext 2]⟩, ⟨1, 0x12, [.name 5, .name 3]⟩] := by decide

/-- A leading zero in a name (log 17). -/
theorem test_assemble_leading_zero :
    parseLine "v01 = ID_DEFAULT".toList = .ok (some (.request ⟨1, 0x0A, []⟩)) := by decide

/-- Rule R74: a StdId literal out of range; and a wrong number of operands (log 17). -/
theorem test_assemble_refuses :
    parseLine "v0 = IDREG_NEW_STD std(#0x800)".toList = .error .badOperand ∧
    parseLine "v0 = IDREG_CMP v1".toList = .error .operandCount := by decide

/-! ### Witnesses -/

/-- `DecodeInvertsEncode`, both clauses at the edge of a range. -/
theorem test_wit_decodeInvertsEncode : (Instr.idregNewStd 3 (std 0x7FF)).wf = true ∧
    (Instr.idregNewStd 3 (std 0x800)).wf = false := by decide

/-- `EncodeInvertsDecode`. -/
theorem test_wit_encodeInvertsDecode :
    decode ⟨3, 0x17, [.name 1, reg 0 0]⟩ = .ok (.idregCmp 3 (.name 1) (reg 0 0)) := rfl

/-- `RequestWordRoundTrip`: two slots, every bit set. -/
theorem test_wit_requestWordRoundTrip :
    (Instr.idregWithRtr 3 (reg 0xFFFFFFFF 0xFFFFFFFF) (.lit (.bool true))).wf = true ∧
    ∀ o ∈ (Instr.idregWithRtr 3 (reg 0xFFFFFFFF 0xFFFFFFFF) (.lit (.bool true))).operands,
      ∃ v, o = .lit v := by
  refine ⟨rfl, ?_⟩
  intro o h
  simp only [Instr.operands, List.mem_cons, List.not_mem_nil, or_false] at h
  rcases h with rfl | rfl
  · exact ⟨_, rfl⟩
  · exact ⟨_, rfl⟩

/-- `ReservedSelectsRefused`: a presented line, and every edge of the reserved ranges. -/
theorem test_wit_reservedSelectsRefused :
    (one 0x0C [std 5]).faultRecord = none ∧ (one 0x0C [std 5]).fetch = some ⟨0, 0x0C, [std 5]⟩ ∧
    (one 0x0C [std 5]).read 0 = none ∧
    (one 0x0C [std 5]).resolveAll [std 5] = .ok [.stdId 5] ∧
    [0x00, 0x0C, 0x0F, 0x19, 0xFF].all reservedSelect = true ∧
    [0x01, 0x0B, 0x10, 0x18].any reservedSelect = false := ⟨rfl, rfl, rfl, rfl, rfl, rfl⟩

/-- `OperandTypingChecked`: both answers of the block at the edge of a range. -/
theorem test_wit_operandTypingChecked :
    respond Config.specDefault 0x10 [.stdId 0x7FF] = .ok (.idReg ⟨0, 0x1FFC0000⟩) ∧
    respond Config.specDefault 0x10 [.stdId 0x800] = .refused .operandType ∧
    respond Config.specDefault 0x17 [.idReg ⟨0, 0⟩] = .refused .operandType := by decide

/-- `ConditionPriority`: a reserved select, bad slots, good slots, a bad operand a, and a bad
operand b. -/
theorem test_wit_conditionPriority :
    Op.ofSelect 0x0F = none ∧ Op.ofSelect 0x10 = some .idregNewStd ∧
    ¬ ([Value.u16 5].map Value.type = Op.idregNewStd.slotTypes ∧
      ∀ v ∈ [Value.u16 5], v.ok = true) ∧
    ([Value.stdId 0x7FF].map Value.type = Op.idregNewStd.slotTypes ∧
      ∀ v ∈ [Value.stdId 0x7FF], v.ok = true) ∧
    bits 0x20000000 31 29 ≠ 0 ∧ bits 0x1FFFFFFF 31 29 = 0 ∧
    respond Config.specDefault 0x16 [.idReg ⟨0, 0x20000000⟩] =
      .fault (.decodeRange 0 0x20000000 none) := by decide

/-- `StepRunsDecodedInstruction`, both clauses. -/
theorem test_wit_stepRuns :
    (midway ⟨4, 0x10, [.unwrap 0]⟩).faultRecord = none ∧
    (midway ⟨4, 0x10, [.unwrap 0]⟩).fetch = some ⟨4, 0x10, [.unwrap 0]⟩ ∧
    decode ⟨4, 0x10, [.unwrap 0]⟩ = .ok (.idregNewStd 4 (.unwrap 0)) ∧
    decodeTableWord 24 0x07FF_10 = some (.idregNewStd 0 (std 0x7FF)) ∧
    State.reset.turns = [] ∧ twoAgents.turns ≠ [] := ⟨rfl, rfl, rfl, rfl, rfl, by decide⟩

/-- `StepPresentsLine`, `RebindingRefused`: a line that decodes, one that does not, and one whose
result name is bound. -/
theorem test_wit_stepPresentsLine :
    (midway ⟨4, 0x0A, []⟩).faultRecord = none ∧ (midway ⟨4, 0x0A, []⟩).fetch = some ⟨4, 0x0A, []⟩ ∧
    (midway ⟨4, 0x19, []⟩).faultRecord = none ∧ (midway ⟨4, 0x19, []⟩).fetch = some ⟨4, 0x19, []⟩ ∧
    (midway ⟨3, 0x0A, []⟩).fetch = some ⟨3, 0x0A, []⟩ ∧
    (midway ⟨3, 0x0A, []⟩).read 3 = some (.optExt none) := ⟨rfl, rfl, rfl, rfl, rfl, rfl⟩

/-- A line that faults at the smallest undecodable value. -/
def faulting : State := midway ⟨4, 0x16, [reg 0 0x20000000]⟩

/-- The state in which it has faulted. -/
def faulted : State := { faulting with faultRecord := some ⟨4, .decodeRange 0 0x20000000 none⟩ }

/-- `FaultEndsProgram`, all its clauses, its third for an agent that is not at the port;
`StepAfterProgramEnd`, its first. -/
theorem test_wit_faultEndsProgram :
    faulting.faultRecord = none ∧ faulting.fetch = some ⟨4, 0x16, [reg 0 0x20000000]⟩ ∧
    faulting.read 4 = none ∧
    faulting.resolveAll [reg 0 0x20000000] = .ok [.idReg ⟨0, 0x20000000⟩] ∧
    respond faulting.config 0x16 [.idReg ⟨0, 0x20000000⟩] =
      .fault (.decodeRange 0 0x20000000 none) ∧
    faulted.faultRecord = some ⟨4, .decodeRange 0 0x20000000 none⟩ ∧
    exec (.idDefault 5) faulted = .next (faulted.complete 5 (.id (.standard 0))) ∧
    exec (.idregToId 5 (reg 1 0xFFFFFFFF)) faulted = .next faulted ∧ faulted.turns = [] ∧
    ({ State.reset with agents := [(7, faulted.toAgentState)] } : State).agentState 7 =
      some faulted.toAgentState ∧
    step { State.reset with agents := [(7, faulted.toAgentState)] } =
      .next { State.reset with agents := [(7, faulted.toAgentState)] } :=
  ⟨rfl, rfl, rfl, rfl, rfl, rfl, rfl, rfl, rfl, rfl, rfl⟩

/-- `StepAfterProgramEnd`, its second clause: at the end of the list and beyond it. -/
theorem test_wit_stepAfterProgramEnd : State.reset.faultRecord = none ∧
    State.reset.program.length ≤ State.reset.index ∧
    ({ State.reset with index := 7 } : State).program.length ≤ 7 := by decide

/-- `RequestIndexAdvances`, `InvHoldsAtStart` and `StepKeepsInv`: a request that completes, one that
faults, the end of the list, and a turn of another agent. -/
theorem test_wit_stepKeepsInv :
    (midway ⟨4, 0x0A, []⟩).inv = true ∧
    step (midway ⟨4, 0x0A, []⟩) =
      .next ((midway ⟨4, 0x0A, []⟩).complete 4 (.id (.standard 0))) ∧
    faulting.inv = true ∧ step faulting = .next faulted ∧
    State.reset.inv = true ∧ step State.reset = .next State.reset ∧ twoAgents.inv = true ∧
    step { twoAgents with program := [] } = .next { twoAgents with program := [] }.yield :=
  ⟨rfl, rfl, rfl, rfl, rfl, rfl, rfl, rfl⟩

/-- The turns of agents 7, 9 and 0, where 9 is not there (log 15). -/
theorem test_port_holders : portHolders (fun k => k == 0 || k == 7) 0 [7, 9, 0] = [0, 7, 7] := by
  decide

/-- `AgentsDoNotInterfere` and `EveryInterleavingGivesTheSameResults`: a turn left, of an agent that
is there and of one that is not; and no turn left. -/
theorem test_wit_agents :
    twoAgents.turns ≠ [] ∧ twoAgents.turns.head? = some 7 ∧
    (twoAgents.agentState 7).map (·.index) = some 0 ∧ twoAgents.agentState 9 = none ∧
    (match step { twoAgents with turns := [9] } with
      | .next t => t.agent = 0 ∧ t.turns = []
      | .fault _ => False
      | .refused _ => False) ∧
    State.reset.turns = [] ∧ step State.reset = .next State.reset :=
  ⟨by decide, rfl, rfl, rfl, ⟨rfl, rfl⟩, rfl, rfl⟩

/-- `NamesBoundOnceUnboundRefused`, its second clause and, for a name and an unwrap after a bound
operand, its third. -/
theorem test_wit_namesBoundOnce :
    exec (.idDefault 4) (midway ⟨4, 0x0A, []⟩) =
      .next ((midway ⟨4, 0x0A, []⟩).complete 4 (.id (.standard 0))) ∧
    (midway ⟨4, 0x0A, []⟩).read 1 = some (.optStd none) ∧
    (midway ⟨4, 0x17, [.name 0] ++ .name 9 :: []⟩).fetch =
      some ⟨4, 0x17, [.name 0] ++ .name 9 :: []⟩ ∧
    (midway ⟨4, 0x17, [.name 0] ++ .name 9 :: []⟩).resolveAll [.name 0] =
      .ok [.optStd (some 0x7FF)] ∧
    (midway ⟨4, 0x17, [.name 0] ++ .unwrap 4 :: []⟩).read 4 = none ∧
    (midway ⟨4, 0x17, [.name 0] ++ .name 9 :: []⟩).read 9 = none := ⟨rfl, rfl, rfl, rfl, rfl, rfl⟩

/-- `UnwrapPresentsOptionVal`, all its clauses. -/
theorem test_wit_unwrap :
    (midway ⟨4, 0x10, [.unwrap 1]⟩).read 0 = some (.optStd (some 0x7FF)) ∧
    (midway ⟨4, 0x10, [.unwrap 1]⟩).read 2 = some (.optExt (some 0x1FFFFFFF)) ∧
    (midway ⟨4, 0x10, [.unwrap 1]⟩).fetch = some ⟨4, 0x10, [] ++ .unwrap 1 :: []⟩ ∧
    (midway ⟨4, 0x10, [.unwrap 1]⟩).resolveAll [] = .ok [] ∧
    (midway ⟨4, 0x10, [.unwrap 1]⟩).read 4 = none ∧
    (midway ⟨4, 0x10, [.unwrap 1]⟩).read 1 = some (.optStd none) ∧
    (midway ⟨4, 0x11, [.unwrap 3]⟩).read 3 = some (.optExt none) :=
  ⟨rfl, rfl, rfl, rfl, rfl, rfl, rfl⟩

/-- `ExecChangesOnlyItsName` and `OperandsUnchanged`: one request that completes and one that
faults. -/
theorem test_wit_execChangesOnlyItsName :
    exec (.stdAsRaw 4 (.unwrap 0)) (midway ⟨4, 0x03, [.unwrap 0]⟩) =
      .next ((midway ⟨4, 0x03, [.unwrap 0]⟩).complete 4 (.u16 0x7FF)) ∧
    (midway ⟨4, 0x03, [.unwrap 0]⟩).resolve (.unwrap 0) = .ok (.stdId 0x7FF) ∧
    exec (.idregToId 4 (reg 0 0x20000000)) faulting = .next faulted ∧
    faulting.resolve (.name 3) = .ok (.optExt none) := ⟨rfl, rfl, rfl, rfl⟩

/-- `FaultCausesAndInfo`: each fault at the smallest value that raises it, operand a and operand b
of a comparison each. -/
theorem test_wit_faultCauses :
    exec (.stdNewUnchecked 0 (.lit (.u16 0x800))) State.reset =
      .next (State.reset.raise (.uncheckedStdRange 0x800)) ∧
    exec (.extNewUnchecked 0 (.lit (.u32 0x20000000))) State.reset =
      .next (State.reset.raise (.uncheckedExtRange 0x20000000)) ∧
    exec (.idregToId 0 (reg 0 0x20000000)) State.reset =
      .next (State.reset.raise (.decodeRange 0 0x20000000 none)) ∧
    exec (.idregCmp 0 (reg 0 0x20000000) (reg 1 0x20000000)) State.reset =
      .next (State.reset.raise (.decodeRange 0 0x20000000 (some .a))) ∧
    exec (.idregCmp 0 (reg 0 0x1FFFFFFF) (reg 1 0x20000000)) State.reset =
      .next (State.reset.raise (.decodeRange 1 0x20000000 (some .b))) ∧
    (State.reset.raise (.uncheckedStdRange 0x800)).faultRecord =
      some ⟨0, .uncheckedStdRange 0x800⟩ ∧
    0x7FF < (0x800#16).toNat ∧ 0x1FFFFFFF < (0x20000000#32).toNat ∧
    bits 0x20000000 31 29 ≠ 0 :=
  ⟨rfl, rfl, rfl, rfl, rfl, rfl, by decide, by decide, by decide⟩

/-- `ResultDependsOnlyOnOperands`: two states that share no name. -/
theorem test_wit_resultDepends :
    (Instr.stdAsRaw 9 (.unwrap 0)).op = (Instr.stdAsRaw 0 (std 0x7FF)).op ∧
    faulting.config = State.reset.config ∧
    faulting.resolveAll (Instr.stdAsRaw 9 (.unwrap 0)).operands =
      State.reset.resolveAll (Instr.stdAsRaw 0 (std 0x7FF)).operands ∧
    faulting.read 9 = none ∧ State.reset.read 0 = none := ⟨rfl, rfl, rfl, rfl, rfl⟩

/-- `RequestsCommute`: two requests that share an operand. -/
theorem test_wit_requestsCommute :
    rising faulting.bindings = true ∧ (5 : Nat) ≠ 4 ∧
    (∀ o ∈ (Instr.stdAsRaw 5 (.unwrap 0)).operands, (4 : Nat) ∉ operandNames o) ∧
    (∀ o ∈ (Instr.idFromStd 4 (.unwrap 0)).operands, (5 : Nat) ∉ operandNames o) ∧
    exec (.stdAsRaw 5 (.unwrap 0)) faulting = .next (faulting.complete 5 (.u16 0x7FF)) ∧
    exec (.idFromStd 4 (.unwrap 0)) faulting =
      .next (faulting.complete 4 (.id (.standard 0x7FF))) :=
  ⟨rfl, by decide, by decide, by decide, rfl, rfl⟩

/-- The result statements of 40_identifiers.md: a U16 and a U32 on either side of the edge, and the
largest StdId and ExtId, as a literal and unwrapped. -/
theorem test_wit_identifierResults :
    State.reset.read 0 = none ∧
    State.reset.resolve (.lit (.u16 0x7FF)) = .ok (.u16 0x7FF) ∧ (0x7FF#16).toNat ≤ 0x7FF ∧
    State.reset.resolve (.lit (.u16 0x800)) = .ok (.u16 0x800) ∧ 0x7FF < (0x800#16).toNat ∧
    State.reset.resolve (.lit (.u32 0x1FFFFFFF)) = .ok (.u32 0x1FFFFFFF) ∧
    (0x1FFFFFFF#32).toNat ≤ 0x1FFFFFFF ∧
    State.reset.resolve (.lit (.u32 0x20000000)) = .ok (.u32 0x20000000) ∧
    0x1FFFFFFF < (0x20000000#32).toNat ∧
    State.reset.resolve (std 0x7FF) = .ok (.stdId 0x7FF) ∧
    State.reset.resolve (ext 0x1FFFFFFF) = .ok (.extId 0x1FFFFFFF) ∧
    faulting.read 4 = none ∧ faulting.resolve (.unwrap 0) = .ok (.stdId 0x7FF) ∧
    faulting.resolve (.unwrap 2) = .ok (.extId 0x1FFFFFFF) ∧
    (0x1FFC0000#32).toNat / 2 ^ 18 = (0x1FFFFFFF#32).toNat / 2 ^ 18 :=
  ⟨rfl, rfl, by decide, rfl, by decide, rfl, by decide, rfl, by decide, rfl, rfl, rfl, rfl, rfl,
    by decide⟩

/-- The result statements of 41_id_union.md and 42_idreg_codec.md: the largest Id of each tag, and
register values on either side of the decoder's edge in both branches. -/
theorem test_wit_codecResults :
    State.reset.read 0 = none ∧
    State.reset.resolve (.lit (.id (.standard 0x7FF))) = .ok (.id (.standard 0x7FF)) ∧
    State.reset.resolve (.lit (.id (.extended 0x1FFFFFFF))) = .ok (.id (.extended 0x1FFFFFFF)) ∧
    State.reset.resolve (reg 0 0x1FFFFFFF) = .ok (.idReg ⟨0, 0x1FFFFFFF⟩) ∧
    State.reset.resolve (.lit (.bool true)) = .ok (.bool true) ∧
    bits 0x1FFFFFFF 31 29 = 0 ∧ bits 0x20000000 31 29 ≠ 0 ∧
    (⟨0x00100000, 5⟩ : IdReg).code.getLsbD 20 = true :=
  ⟨rfl, rfl, rfl, rfl, rfl, by decide, by decide, by decide⟩

/-- `IdregCmpOrders`, `IdregEqComparesBothWords`: operands that are decodable, and operands that
are not. -/
theorem test_wit_comparisonResults :
    State.reset.read 0 = none ∧
    State.reset.resolve (reg 0 0x1FFFFFFF) = .ok (.idReg ⟨0, 0x1FFFFFFF⟩) ∧
    State.reset.resolve (reg 0x00200000 0x1FFFFFFF) = .ok (.idReg ⟨0x00200000, 0x1FFFFFFF⟩) ∧
    State.reset.resolve (reg 0 0x20000000) = .ok (.idReg ⟨0, 0x20000000⟩) ∧
    bits 0x1FFFFFFF 31 29 = 0 ∧ bits 0x20000000 31 29 ≠ 0 :=
  ⟨rfl, rfl, rfl, rfl, by decide, by decide⟩

/-- `DecodeReadsOnlyIdentifier`: two standard values that differ in RTR, DLC, TIMESTAMP and the low id
bits. -/
theorem test_wit_decodeIgnoresOtherBits :
    ide ⟨0x00181234, 0x0017FFFF⟩ = ide ⟨0, 0x00140000⟩ ∧
    identifierBits ⟨0x00181234, 0x0017FFFF⟩ = identifierBits ⟨0, 0x00140000⟩ := by decide

/-- `BaseIdPositionsLineUp`, `RoundTripThroughRtrWrites`: the largest identifiers. -/
theorem test_wit_roundTrip : (0x7FF#16).toNat ≤ 0x7FF ∧ (0x1FFFFFFF#32).toNat ≤ 0x1FFFFFFF := by
  decide

/-- `BitRouting`: a code bit that is neither IDE nor SRR. -/
theorem test_wit_bitRouting : (20 : Nat) ≠ 21 ∧ (20 : Nat) ≠ 22 := by decide

/-- `EncoderProducedNeverFault`, `EncoderProducedForms`, `EqAgreesWithCmp`: encoder-produced
values of both kinds, with operands that present them. -/
theorem test_wit_encoderProduced :
    EncoderProduced true ⟨0x00100000, 0x1FFC0000⟩ ∧ EncoderProduced true ⟨0x00600000, 0x1FFFFFFF⟩ ∧
    State.reset.read 0 = none ∧
    State.reset.resolve (reg 0x00100000 0x1FFC0000) = .ok (.idReg ⟨0x00100000, 0x1FFC0000⟩) ∧
    State.reset.resolve (reg 0x00600000 0x1FFFFFFF) = .ok (.idReg ⟨0x00600000, 0x1FFFFFFF⟩) :=
  ⟨.rtr (newStd 0x7FF) true (.std 0x7FF (by decide)), .ext 0x1FFFFFFF (by decide), rfl, rfl, rfl⟩

/-- The statements on the order, `CmpFollowsPriorityKey` to `HostRelationsAndMaximum`: the largest
decodable value of each kind; equal and unequal IDE, RTR, identifier bits and ids. -/
theorem test_wit_order :
    decodable ⟨0, 0x1FFFFFFF⟩ = true ∧ decodable ⟨0x00200000, 0x1FFFFFFF⟩ = true ∧
    decodable ⟨0x00100000, 0x1FFC0000⟩ = true ∧
    ide ⟨0, 0x1FFFFFFF⟩ = false ∧ ide ⟨0x00200000, 0x1FFFFFFF⟩ = true ∧
    (ide ⟨0, 0x1FFFFFFF⟩ = ide ⟨0x00081234, 0x1FFC0000⟩ ∧
      rtr ⟨0, 0x1FFFFFFF⟩ = rtr ⟨0x00081234, 0x1FFC0000⟩ ∧
      identifierBits ⟨0, 0x1FFFFFFF⟩ = identifierBits ⟨0x00081234, 0x1FFC0000⟩) ∧
    (toId ⟨0, 0x1FFFFFFF⟩ = toId ⟨0x00100000, 0x1FFC0000⟩ ∧ rtr ⟨0, 0x1FFFFFFF⟩ = false ∧
      rtr ⟨0x00100000, 0x1FFC0000⟩ = true) ∧
    toId ⟨0, 0x1FFFFFFF⟩ ≠ toId ⟨0x00200000, 0x1FFFFFFF⟩ ∧
    eqReg ⟨0, 0x1FFFFFFF⟩ ⟨0, 0x1FFFFFFF⟩ = true ∧
    identifierBits ⟨0, 0⟩ < identifierBits ⟨0, 0x1FFFFFFF⟩ ∧
    ([⟨0, 0⟩, ⟨0x00200000, 0x1FFFFFFF⟩] : List IdReg) ≠ [] ∧
    ∀ r ∈ ([⟨0, 0⟩, ⟨0x00200000, 0x1FFFFFFF⟩] : List IdReg), decodable r = true := by decide

/-- `WireReadingAgrees`: the largest identifiers. -/
theorem test_wit_wire : (CanId.standard 0x7FF).ok = true ∧ (CanId.extended 0x1FFFFFFF).ok = true := by
  decide

/-- `ResultBitsDetermineValue`: a value and itself are the only such pair, by the statement. -/
theorem test_wit_resultBits : (Value.optStd none).type = (Value.optStd none).type ∧
    (Value.optStd none).bits = (Value.optStd none).bits := ⟨rfl, rfl⟩

/-- `PseudoOperationsExpandAndRun`: names that are unbound, operands at the edge of their range, and
a line with a name. -/
theorem test_wit_pseudo :
    State.reset.read 5 = none ∧ State.reset.read 4 = none ∧ (5 : Nat) ≠ 4 ∧
    State.reset.resolve (std 0x7FF) = .ok (.stdId 0x7FF) ∧
    State.reset.resolve (ext 0x1FFFFFFF) = .ok (.extId 0x1FFFFFFF) ∧
    State.reset.resolve (.lit (.bool true)) = .ok (.bool true) ∧
    parseLines ["v4 = STD_ZERO"] = .ok [.stdZero 4] ∧
    Line.stdZero 4 ∈ [Line.stdZero 4] ∧ (4 : Nat) ∈ lineNames (.stdZero 4) ∧ (0 : Nat) ≠ 1 :=
  ⟨rfl, rfl, by decide, rfl, rfl, rfl, by decide, by decide, by decide, by decide⟩

end Sys2Proof.Tests
end

section
/-! PROOFS. The block at the port of any host program: the operations of `exec` all present the
values of their operands to the block's `runOp`, and take its response (10_state.md rule R20). -/

namespace Sys2Proof.Machine

/-- The host takes the block's response to a line with result name `d`, as in `State.present`
(60_exceptions.md rules R170 and R175). -/
def State.take (s : State) (d : Nat) : Response → Host.Outcome State Fault Refusal
  | .ok v => .next (s.complete d v)
  | .fault info => .next (s.raise info)
  | .refused .reservedOp => .refused .reservedOp
  | .refused .operandType => .refused .operandType

/-- The host presents the values of a line's operands to the block and takes the response; an
operand that presents no value refuses the line (30_encoding.md rule R74). -/
def State.presentValues (s : State) (d : Nat) (block : List Value → Response) :
    Except Refusal (List Value) → Host.Outcome State Fault Refusal
  | .error r => .refused r
  | .ok vs => s.take d (block vs)

variable {s : State} {d : Nat} {a b : Operand}

@[simp] theorem State.take_ofResult (r : Except FaultInfo Value) :
    s.take d (.ofResult r) = s.answer d r := by
  cases r <;> rfl

theorem State.request0_eq_presentValues {r : Except FaultInfo Value} (hd : s.read d = none) :
    s.request0 d r = s.presentValues d (run0 r) (s.resolveAll []) := by
  simp [State.request0_of_unbound hd, State.resolveAll, State.presentValues, run0]

theorem State.request1_eq_presentValues {α : Type} {slot : Value → Option α}
    {run : α → Except FaultInfo Value} (hd : s.read d = none) :
    s.request1 d a slot run = s.presentValues d (run1 slot run) (s.resolveAll [a]) := by
  cases ha : s.resolve a with
  | error r => simp [State.request1, State.resolveAll, State.presentValues, hd, ha]
  | ok v =>
    cases hx : slot v with
    | none =>
      simp [State.request1, State.resolveAll, State.presentValues, State.take, run1, hd, ha, hx]
    | some x =>
      simp [State.request1_of_slot hd ha hx, State.resolveAll, State.presentValues, run1, ha, hx]

theorem State.request2_eq_presentValues {α β : Type} {slotA : Value → Option α}
    {slotB : Value → Option β} {run : α → β → Except FaultInfo Value} (hd : s.read d = none) :
    s.request2 d a b slotA slotB run =
      s.presentValues d (run2 slotA slotB run) (s.resolveAll [a, b]) := by
  cases ha : s.resolve a with
  | error r => simp [State.request2, State.resolveAll, State.presentValues, hd, ha]
  | ok v =>
    cases hb : s.resolve b with
    | error r => simp [State.request2, State.resolveAll, State.presentValues, hd, ha, hb]
    | ok w =>
      cases hx : slotA v <;> cases hy : slotB w
      case some.some x y =>
        simp [State.request2_of_slots hd ha hb hx hy, State.resolveAll, State.presentValues, run2,
          ha, hb, hx, hy]
      all_goals
        simp [State.request2, State.resolveAll, State.presentValues, State.take, run2,
          hd, ha, hb, hx, hy]

/-- What every instruction does when its result name is unbound: the state enters the block's
response by the build parameter and the values of the operands alone. -/
theorem exec_eq_presentValues (i : Instr) (s : State) (hd : s.read i.dst = none) :
    exec i s = s.presentValues i.dst (runOp s.config i.op) (s.resolveAll i.operands) := by
  cases i with
  | idDefault => exact State.request0_eq_presentValues hd
  | idregWithRtr | idregCmp | idregEq => exact State.request2_eq_presentValues hd
  | _ => exact State.request1_eq_presentValues hd

/-- Two host programs that take one response complete with one value, record one fault, or are
refused for one reason. -/
theorem State.take_agrees (s t : State) (d e : Nat) (r : Response) :
    (∃ v, s.take d r = .next (s.complete d v) ∧ t.take e r = .next (t.complete e v)) ∨
    (∃ f, s.take d r = .next (s.raise f) ∧ t.take e r = .next (t.raise f)) ∨
    (∃ q, s.take d r = .refused q ∧ t.take e r = .refused q) := by
  cases r with
  | ok v => exact .inl ⟨v, rfl, rfl⟩
  | fault f => exact .inr (.inl ⟨f, rfl, rfl⟩)
  | refused q => cases q <;> exact .inr (.inr ⟨_, rfl, rfl⟩)

/-- Settles O24: both requests put the same values to the same operation of the same block. -/
theorem resultDependsOnlyOnOperands : Obligations.ResultDependsOnlyOnOperands := by
  intro i j s t hop hconfig hvalues hs ht
  rw [exec_eq_presentValues i s hs, exec_eq_presentValues j t ht, hop, hconfig, hvalues]
  cases t.resolveAll j.operands with
  | error r => exact .inr (.inr ⟨r, rfl, rfl⟩)
  | ok vs => exact State.take_agrees s t i.dst j.dst (runOp t.config j.op vs)

end Sys2Proof.Machine
end

section
/-! PROOFS. The request boundary: the rows of the operations, the reserved selects, and the one
check of the operand slots (30_encoding.md rules R63, R69 and R70). -/

namespace Sys2Proof.Machine

/-! ### Rows and selects -/

/-- A line has as many operand slots as its operation's row. -/
theorem length_operands (i : Instr) : i.operands.length = i.op.slotTypes.length := by
  cases i <;> rfl

/-- Settles O2: the table's rows are the model's, and a line takes its select and its number of
slots from the row of its own operation. -/
theorem opcodeTableRows : Obligations.OpcodeTableRows :=
  ⟨rfl, fun i => ⟨rfl, length_operands i, Op.ofSelect_select i.op⟩⟩

/-- The reserved selects are those that name no operation. -/
theorem Op.ofSelect_eq_none {sel : Select} :
    Op.ofSelect sel = none ↔ reservedSelect sel = true := by
  revert sel; decide

theorem reservedSelect_iff {sel : Select} : reservedSelect sel = true ↔
    (sel.toNat = 0x00 ∨ (0x0C ≤ sel.toNat ∧ sel.toNat ≤ 0x0F) ∨ 0x19 ≤ sel.toNat) := by
  simp only [reservedSelect, Bool.or_eq_true, Bool.and_eq_true, beq_iff_eq, decide_eq_true_eq,
    or_assoc]

/-! ### Operand slots -/

theorem slotsAccepted_iff {ts : List ValueType} {vs : List Value} :
    slotsAccepted ts vs = true ↔ vs.map Value.type = ts ∧ ∀ v ∈ vs, v.ok = true := by
  induction ts generalizing vs with
  | nil => cases vs <;> simp [slotsAccepted]
  | cons t ts ih =>
    cases vs with
    | nil => simp [slotsAccepted]
    | cons v vs => simp [slotsAccepted, ih, and_assoc, and_left_comm]

/-- A reader of slots takes exactly the values of one type that meet the type's invariant. -/
def Reads {α : Type} (slot : Value → Option α) (t : ValueType) : Prop :=
  ∀ v, (slot v).isSome = (v.type == t && v.ok)

theorem reads_asU16 : Reads asU16 .u16 := by intro v; cases v <;> rfl
theorem reads_asU32 : Reads asU32 .u32 := by intro v; cases v <;> rfl
theorem reads_asBool : Reads asBool .bool := by intro v; cases v <;> rfl
theorem reads_asIdReg : Reads asIdReg .idReg := by intro v; cases v <;> rfl

theorem reads_asStdId : Reads asStdId .stdId := by
  intro v
  cases v with
  | stdId raw => rw [Bool.eq_iff_iff]; simp [asStdId, Value.type, Value.ok]
  | _ => rfl

theorem reads_asExtId : Reads asExtId .extId := by
  intro v
  cases v with
  | extId raw => rw [Bool.eq_iff_iff]; simp [asExtId, Value.type, Value.ok]
  | _ => rfl

theorem reads_asId : Reads asId .id := by
  intro v
  cases v with
  | id i => rw [Bool.eq_iff_iff]; simp [asId, Value.type, Value.ok]
  | _ => rfl

/-! ### Refusals of an operation -/

/-- An operation's own response is no refusal. -/
theorem ofResult_ne_refused (r : Except FaultInfo Value) (q : RefusedReason) :
    Response.ofResult r ≠ .refused q := by
  cases r <;> simp [Response.ofResult]

variable {q : RefusedReason} {vs : List Value}

theorem run0_eq_refused {r : Except FaultInfo Value} :
    run0 r vs = .refused q ↔ q = .operandType ∧ slotsAccepted [] vs = false := by
  cases vs <;> simp [run0, slotsAccepted, ofResult_ne_refused, eq_comm]

theorem run1_eq_refused {α : Type} {slot : Value → Option α} {run : α → Except FaultInfo Value}
    {t : ValueType} (h : Reads slot t) :
    run1 slot run vs = .refused q ↔ q = .operandType ∧ slotsAccepted [t] vs = false := by
  match vs with
  | [] | _ :: _ :: _ => simp [run1, slotsAccepted, eq_comm]
  | [v] =>
    have hv : slotsAccepted [t] [v] = (slot v).isSome := by simp [slotsAccepted, h v]
    rw [hv]
    cases hx : slot v <;> simp [run1, hx, ofResult_ne_refused, eq_comm]

theorem run2_eq_refused {α β : Type} {slotA : Value → Option α} {slotB : Value → Option β}
    {run : α → β → Except FaultInfo Value} {t u : ValueType} (ha : Reads slotA t)
    (hb : Reads slotB u) :
    run2 slotA slotB run vs = .refused q ↔
      q = .operandType ∧ slotsAccepted [t, u] vs = false := by
  match vs with
  | [] | [_] | _ :: _ :: _ :: _ => simp [run2, slotsAccepted, eq_comm]
  | [v, w] =>
    have hvw : slotsAccepted [t, u] [v, w] = ((slotA v).isSome && (slotB w).isSome) := by
      simp [slotsAccepted, ha v, hb w]
    rw [hvw]
    cases hx : slotA v <;> cases hy : slotB w <;>
      simp [run2, hx, hy, ofResult_ne_refused, eq_comm]

/-- Every operation reads its slots as its row types them: it refuses for one reason, and only
slots that are not the row's. -/
theorem runOp_eq_refused {c : Config} {op : Op} :
    runOp c op vs = .refused q ↔
      q = .operandType ∧ slotsAccepted op.slotTypes vs = false := by
  cases op with
  | idDefault => exact run0_eq_refused
  | stdNew | stdNewUnchecked => exact run1_eq_refused reads_asU16
  | extNew | extNewUnchecked => exact run1_eq_refused reads_asU32
  | stdAsRaw | idFromStd | idregNewStd => exact run1_eq_refused reads_asStdId
  | extAsRaw | extStandardId | idFromExt | idregNewExt => exact run1_eq_refused reads_asExtId
  | idAsRaw => exact run1_eq_refused reads_asId
  | idregIsExt | idregIsStd | idregRtr | idregToId => exact run1_eq_refused reads_asIdReg
  | idregWithRtr => exact run2_eq_refused reads_asIdReg reads_asBool
  | idregCmp | idregEq => exact run2_eq_refused reads_asIdReg reads_asIdReg

/-! ### Refusals of the block -/

variable {c : Config} {sel : Select} {op : Op}

theorem respond_of_reserved (h : Op.ofSelect sel = none) :
    respond c sel vs = .refused .reservedOp := by
  simp [respond, h]

/-- The check at the boundary is the only refusal of a request to an operation: what passes it, the
operation does not refuse. -/
theorem respond_eq_refused (h : Op.ofSelect sel = some op) :
    respond c sel vs = .refused q ↔
      q = .operandType ∧ slotsAccepted op.slotTypes vs = false := by
  cases hv : slotsAccepted op.slotTypes vs <;> simp [respond, h, hv, runOp_eq_refused, eq_comm]

theorem respond_eq_reservedOp :
    respond c sel vs = .refused .reservedOp ↔ reservedSelect sel = true := by
  rw [← Op.ofSelect_eq_none]
  cases h : Op.ofSelect sel with
  | none => simp [respond_of_reserved h]
  | some op => simp [respond_eq_refused h]

/-! ### Refusals of the step -/

variable {s : State} {f : Frame} {e : DecodeError}

theorem decode_of_reserved (h : Op.ofSelect f.select = none) :
    decode f = .error .reservedOp := by
  simp [decode, h]

/-- A line that the host presents and that decodes to nothing is refused for the decoder's reason. -/
theorem State.lineRefusal_of_resolved (hd : s.read f.dst = none)
    (hvs : s.resolveAll f.slots = .ok vs) : s.lineRefusal f e = decodeRefusal e := by
  simp [State.lineRefusal, hd, hvs]

theorem State.presentNext_of_undecoded (hr : s.faultRecord = none) (hf : s.fetch = some f)
    (he : decode f = .error e) : s.presentNext = .refused (s.lineRefusal f e) := by
  simp [State.presentNext, hr, hf, he]

/-- Settles O6: a select names no operation exactly when it is reserved, and an operation never
refuses as ReservedOp. -/
theorem reservedSelectsRefused : Obligations.ReservedSelectsRefused := by
  refine ⟨fun c sel slots => respond_eq_reservedOp.trans reservedSelect_iff, ?_⟩
  intro s f vs hr hf hd hvs hsel
  have hdecode : decode f = .error .reservedOp := decode_of_reserved (Op.ofSelect_eq_none.mpr hsel)
  rw [step, State.presentNext_of_undecoded hr hf hdecode, State.lineRefusal_of_resolved hd hvs,
    decodeRefusal]

/-- Settles O7: the check of the slots is the row's types and the values' invariants, and nothing
after it refuses. -/
theorem operandTypingChecked : Obligations.OperandTypingChecked := by
  refine ⟨fun c op slots => ?_, ?_, ?_, ?_, ?_, ?_⟩
  · rw [respond_eq_refused (Op.ofSelect_select op), ← slotsAccepted_iff, Bool.not_eq_true]
    exact and_iff_right rfl
  all_goals simp [Value.ok, CanId.ok]

end Sys2Proof.Machine
end

section
/-! PROOFS. The leaf identifiers (40_identifiers.md): what each request does on the value its
operand presents, in the terms of the operation's own function, and then what that function is. -/

namespace Sys2Proof.Machine

/-! ### The operations' functions -/

section Std

variable {x : Half}

theorem stdNew_of_le (h : x.toNat ≤ stdMax) : stdNew x = some x := if_pos h

theorem stdNewUnchecked_of_le (h : x.toNat ≤ stdMax) : stdNewUnchecked x = .ok x := if_pos h

theorem stdNewUnchecked_of_gt (h : stdMax < x.toNat) :
    stdNewUnchecked x = .error (.uncheckedStdRange x) := if_neg h.not_ge

end Std

section Ext

variable {x y : Word}

theorem extNew_of_le (h : x.toNat ≤ extMax) : extNew x = some x := if_pos h

theorem extNewUnchecked_of_le (h : x.toNat ≤ extMax) : extNewUnchecked x = .ok x := if_pos h

theorem extNewUnchecked_of_gt (h : extMax < x.toNat) :
    extNewUnchecked x = .error (.uncheckedExtRange x) := if_neg h.not_ge

/-- Bits 28..18 are all the bits an extended identifier has above its low 18. -/
theorem bits_28_18 (h : x.toNat ≤ extMax) : bits x 28 18 = x.toNat / 2 ^ 18 := by
  simp only [extMax] at h
  simp only [bits]
  omega

theorem bits_28_18_le (x : Word) : bits x 28 18 ≤ stdMax := by
  simp only [bits, stdMax]
  omega

/-- No bit above bit 31 stands in a word, so 16 bits hold the shifted word whole. -/
theorem toNat_baseId (x : Word) : (baseId x).toNat = x.toNat / 2 ^ 18 := by
  have hfits : x.toNat / 2 ^ 18 < 2 ^ 16 := by omega
  rw [baseId, BitVec.toNat_setWidth, BitVec.toNat_ushiftRight, Nat.shiftRight_eq_div_pow,
    Nat.mod_eq_of_lt hfits]

/-- The base id depends on the bits above the low 18 only (rule R107). -/
theorem baseId_congr (h : y.toNat / 2 ^ 18 = x.toNat / 2 ^ 18) : baseId y = baseId x :=
  BitVec.eq_of_toNat_eq <| by rw [toNat_baseId, toNat_baseId, h]

end Ext

/-! ### The requests -/

section Requests

variable {s : State} {d : Nat} {a : Operand} (hd : s.read d = none)
include hd

theorem exec_stdNew {x : Half} (ha : s.resolve a = .ok (.u16 x)) :
    exec (.stdNew d a) s = .next (s.complete d (.optStd (stdNew x))) :=
  State.request1_of_slot hd ha rfl

theorem exec_stdNewUnchecked {x : Half} (ha : s.resolve a = .ok (.u16 x)) :
    exec (.stdNewUnchecked d a) s = s.answer d ((stdNewUnchecked x).map .stdId) :=
  State.request1_of_slot hd ha rfl

theorem exec_stdAsRaw {x : Half} (ha : s.resolve a = .ok (.stdId x)) (hx : x.toNat ≤ stdMax) :
    exec (.stdAsRaw d a) s = .next (s.complete d (.u16 x)) :=
  State.request1_of_slot hd ha (asStdId_eq_some.mpr ⟨rfl, hx⟩)

theorem exec_extNew {x : Word} (ha : s.resolve a = .ok (.u32 x)) :
    exec (.extNew d a) s = .next (s.complete d (.optExt (extNew x))) :=
  State.request1_of_slot hd ha rfl

theorem exec_extNewUnchecked {x : Word} (ha : s.resolve a = .ok (.u32 x)) :
    exec (.extNewUnchecked d a) s = s.answer d ((extNewUnchecked x).map .extId) :=
  State.request1_of_slot hd ha rfl

theorem exec_extAsRaw {x : Word} (ha : s.resolve a = .ok (.extId x)) (hx : x.toNat ≤ extMax) :
    exec (.extAsRaw d a) s = .next (s.complete d (.u32 x)) :=
  State.request1_of_slot hd ha (asExtId_eq_some.mpr ⟨rfl, hx⟩)

theorem exec_extStandardId {x : Word} (ha : s.resolve a = .ok (.extId x))
    (hx : x.toNat ≤ extMax) :
    exec (.extStandardId d a) s = .next (s.complete d (.stdId (baseId x))) :=
  State.request1_of_slot hd ha (asExtId_eq_some.mpr ⟨rfl, hx⟩)

end Requests

/-! ### The statements -/

/-- Settles O33: both the base id and bits 28..18 of an extended identifier are its value divided
by 2^18. -/
theorem extStandardIdGivesBaseId : Obligations.ExtStandardIdGivesBaseId := by
  intro s d a x hd ha hx
  have hbits : (baseId x).toNat = bits x 28 18 := (toNat_baseId x).trans (bits_28_18 hx).symm
  exact ⟨exec_extStandardId hd ha hx, rfl, hbits, bits_28_18_le x,
    fun _ _ htop => baseId_congr htop⟩

/-- Settles O28: the checked constructor is the range test itself. -/
theorem stdNewGivesOptStd : Obligations.StdNewGivesOptStd :=
  fun _ _ _ _ hd ha => ⟨exec_stdNew hd ha, rfl⟩

/-- Settles O29, on either side of the edge at 0x7FF. -/
theorem stdNewUncheckedGivesStdId : Obligations.StdNewUncheckedGivesStdId := by
  intro s d a x hd ha
  refine ⟨fun hle => ⟨?_, ?_⟩, fun hgt => ⟨?_, rfl⟩, rfl⟩
  · rw [exec_stdNewUnchecked hd ha, stdNewUnchecked_of_le hle]; rfl
  · rw [exec_stdNew hd ha, stdNew_of_le hle]
  · rw [exec_stdNewUnchecked hd ha, stdNewUnchecked_of_gt hgt]; rfl

/-- Settles O30: the operand's invariant is what lets each request read its slot. -/
theorem asRawGivesStoredValue : Obligations.AsRawGivesStoredValue :=
  ⟨fun _ _ _ _ hd ha hx => ⟨exec_stdAsRaw hd ha hx, rfl⟩,
    fun _ _ _ _ hd ha hx => ⟨exec_extAsRaw hd ha hx, rfl⟩⟩

/-- Settles O31: the checked constructor is the range test itself. -/
theorem extNewGivesOptExt : Obligations.ExtNewGivesOptExt :=
  fun _ _ _ _ hd ha => ⟨exec_extNew hd ha, rfl⟩

/-- Settles O32, on either side of the edge at 0x1FFFFFFF. -/
theorem extNewUncheckedGivesExtId : Obligations.ExtNewUncheckedGivesExtId := by
  intro s d a x hd ha
  refine ⟨fun hle => ⟨?_, ?_⟩, fun hgt => ⟨?_, rfl⟩, rfl⟩
  · rw [exec_extNewUnchecked hd ha, extNewUnchecked_of_le hle]; rfl
  · rw [exec_extNew hd ha, extNew_of_le hle]
  · rw [exec_extNewUnchecked hd ha, extNewUnchecked_of_gt hgt]; rfl

end Sys2Proof.Machine
end

section
/-! PROOFS. The tagged identifiers (41_id_union.md): what tag and value say of an Id, what each
request does in the terms of the operation's own function, and then the statements. -/

namespace Sys2Proof.Machine

/-! ### Tags and values -/

/-- A 32-bit word holds a zero-extended 16-bit identifier whole. -/
theorem toNat_val_idFromStd (x : Half) : (idFromStd x).val.toNat = x.toNat :=
  BitVec.toNat_setWidth_of_le (by decide)

/-- Tag and value determine an Id (rule R124). -/
theorem canId_eq_iff {i j : CanId} : i = j ↔ i.tag = j.tag ∧ i.val = j.val := by
  constructor
  · rintro rfl
    exact ⟨rfl, rfl⟩
  · rintro ⟨htag, hval⟩
    cases i <;> cases j
    case standard.standard => exact congrArg CanId.standard hval
    case extended.extended => exact congrArg CanId.extended hval
    all_goals cases htag

/-- An Extended is not the default Id, whose tag is 0 (rule R121). -/
theorem idFromExt_ne_idDefault (x : Word) : idFromExt x ≠ idDefault := by
  intro heq
  have htag : (1 : Nat) = 0 := (canId_eq_iff.mp heq).1
  exact absurd htag (by decide)

/-! ### The requests -/

section Requests

variable {s : State} {d : Nat} {a : Operand} (hd : s.read d = none)
include hd

theorem exec_idFromStd {x : Half} (ha : s.resolve a = .ok (.stdId x)) (hx : x.toNat ≤ stdMax) :
    exec (.idFromStd d a) s = .next (s.complete d (.id (idFromStd x))) :=
  State.request1_of_slot hd ha (asStdId_eq_some.mpr ⟨rfl, hx⟩)

theorem exec_idFromExt {x : Word} (ha : s.resolve a = .ok (.extId x)) (hx : x.toNat ≤ extMax) :
    exec (.idFromExt d a) s = .next (s.complete d (.id (idFromExt x))) :=
  State.request1_of_slot hd ha (asExtId_eq_some.mpr ⟨rfl, hx⟩)

theorem exec_idDefault : exec (.idDefault d) s = .next (s.complete d (.id idDefault)) :=
  State.request0_of_unbound hd

theorem exec_idAsRaw {i : CanId} (ha : s.resolve a = .ok (.id i)) (hi : i.ok = true) :
    exec (.idAsRaw d a) s = .next (s.complete d (.u32 (idAsRaw i))) :=
  State.request1_of_slot hd ha (asId_eq_some.mpr ⟨rfl, hi⟩)

end Requests

/-! ### The statements -/

/-- Settles O34: each wrap reads its slot by the identifier's invariant, and zero extension keeps
the value. -/
theorem idFromLeafWraps : Obligations.IdFromLeafWraps := by
  constructor
  · intro s d a x hd ha hx
    exact ⟨exec_idFromStd hd ha hx, rfl, toNat_val_idFromStd x, rfl⟩
  · intro s d a x hd ha hx
    exact ⟨exec_idFromExt hd ha hx, rfl, rfl, idFromExt_ne_idDefault x, rfl⟩

/-- Settles O35: the request has no operand, so an unbound result name is all it needs. -/
theorem idDefaultGivesStandardZero : Obligations.IdDefaultGivesStandardZero :=
  fun _ _ hd => ⟨exec_idDefault hd, rfl⟩

/-- Settles O36: either variant's range is its Id's invariant, by which the request reads its slot;
and an Id is its tag and its value. -/
theorem idAsRawDropsTag : Obligations.IdAsRawDropsTag := by
  refine ⟨fun s d a x hd => ⟨fun ha hx => ?_, fun ha hx => ?_, rfl⟩, fun i j => canId_eq_iff⟩
  · have hok : (CanId.standard x).ok = true := decide_eq_true hx
    exact exec_idAsRaw hd ha hok
  · have hok : (CanId.extended x).ok = true := decide_eq_true hx
    exact exec_idAsRaw hd ha hok

end Sys2Proof.Machine
end

section
/-! PROOFS. The IdReg codec (42_idreg_codec.md): what `exec` can do when it answers a next state,
what each of the codec's functions is, what each request does in the terms of its function, and then
the statements. -/

namespace Sys2Proof.Machine

/-! ### What a request changes -/

section Frame

variable {s t : State} {i : Instr} {o : Operand} {v : Value}

/-- Every instruction that answers a next state answers with the outcome of an accepted request, its
result name unbound before. -/
theorem exec_next_answer (h : exec i s = .next t) :
    s.read i.dst = none ∧ ∃ r, s.answer i.dst r = .next t := by
  cases i with
  | idDefault =>
    obtain ⟨hd, hanswer⟩ := State.request0_next h
    exact ⟨hd, _, hanswer⟩
  | idregWithRtr | idregCmp | idregEq =>
    obtain ⟨hd, _, _, _, _, _, _, _, _, hanswer⟩ := State.request2_next h
    exact ⟨hd, _, hanswer⟩
  | _ =>
    obtain ⟨hd, _, _, _, _, hanswer⟩ := State.request1_next h
    exact ⟨hd, _, hanswer⟩

/-- Everything an instruction can do when it answers a next state: it completes with a result for a
name that was unbound, or it faults. -/
theorem exec_next_cases (h : exec i s = .next t) :
    s.read i.dst = none ∧ ((∃ v, t = s.complete i.dst v) ∨ (∃ f, t = s.raise f)) := by
  obtain ⟨hd, r, hanswer⟩ := exec_next_answer h
  obtain ⟨v, -, ht⟩ | ⟨f, -, ht⟩ := State.answer_next hanswer
  · exact ⟨hd, .inl ⟨v, ht⟩⟩
  · exact ⟨hd, .inr ⟨f, ht⟩⟩

/-- A request keeps every binding: the only name it can bind was unbound (rule R22). -/
theorem read_of_exec_next (h : exec i s = .next t) {n : Nat} (hn : s.read n = some v) :
    t.read n = some v := by
  obtain ⟨hd, ⟨w, rfl⟩ | ⟨f, rfl⟩⟩ := exec_next_cases h
  · have hne : n ≠ i.dst := by
      rintro rfl
      exact absurd (hd.symm.trans hn) nofun
    rw [State.read_complete_of_ne s hne, hn]
  · rw [State.read_raise, hn]

/-- An operand presents what it presented wherever every bound name still holds its value. -/
theorem State.resolve_of_read (hread : ∀ n w, s.read n = some w → t.read n = some w)
    (ho : s.resolve o = .ok v) : t.resolve o = .ok v := by
  cases o with
  | lit w => exact ho
  | name n | unwrap n =>
    cases hn : s.read n with
    | none => simp [State.resolve, hn] at ho
    | some w => simpa [State.resolve, hn, hread n w hn] using ho

end Frame

/-! ### The codec's functions -/

/-- The shift to bit 18 loses no bit of a standard identifier (rule R130). -/
theorem toNat_newStd_id {x : Half} (h : x.toNat ≤ stdMax) :
    (newStd x).id.toNat = x.toNat * 2 ^ 18 := by
  simp only [stdMax] at h
  have hfits : x.toNat * 2 ^ 18 < 2 ^ 32 := by omega
  rw [newStd, BitVec.toNat_shiftLeft, BitVec.toNat_setWidth_of_le (by decide), Nat.shiftLeft_eq,
    Nat.mod_eq_of_lt hfits]

/-- The extended encoder's result for both values of SRR_ON_EXT (rule R131). -/
theorem newExt_eq (c : Bool) (x : Word) :
    newExt c x = ⟨if c then 0x00600000 else 0x00200000, x⟩ := by
  rw [newExt, BitVec.shiftLeft_zero]
  cases c <;> rfl

section WithRtr

variable {r q : IdReg}

/-- Register values with one id word, one RTR and the same code bits beside RTR are the same. -/
theorem idReg_eq_of_rtr_eq (hid : r.id = q.id) (hrtr : rtr r = rtr q)
    (hcode : ∀ k, k ≠ rtrShift → r.code.getLsbD k = q.code.getLsbD k) : r = q := by
  have hword : r.code = q.code := by
    apply BitVec.eq_of_getLsbD_eq
    intro k _
    by_cases hk : k = rtrShift
    · rw [hk]
      exact hrtr
    · exact hcode k hk
  cases r
  cases q
  exact congr (congrArg IdReg.mk hword) hid

theorem withRtr_code_getLsbD (b : Bool) {k : Nat} (hk : k ≠ rtrShift) :
    (withRtr r b).code.getLsbD k = r.code.getLsbD k :=
  setRtr_getLsbD b r.code k hk

/-- Only the last write of RTR counts (rule R132). -/
theorem withRtr_withRtr (r : IdReg) (b c : Bool) : withRtr (withRtr r b) c = withRtr r c := by
  apply idReg_eq_of_rtr_eq
  · rfl
  · rw [rtr_withRtr, rtr_withRtr]
  · intro k hk
    rw [withRtr_code_getLsbD c hk, withRtr_code_getLsbD b hk, withRtr_code_getLsbD c hk]

/-- Writing the RTR a register value has changes nothing (rule R132). -/
theorem withRtr_rtr (r : IdReg) : withRtr r (rtr r) = r :=
  idReg_eq_of_rtr_eq rfl (rtr_withRtr r (rtr r)) fun _ hk => withRtr_code_getLsbD (rtr r) hk

end WithRtr

section Decode

variable {r : IdReg} {w : Word}

/-- A word's bits 31..29 are zero exactly when its value fits in 29 bits. -/
theorem bits_31_29_eq_zero_iff : bits w 31 29 = 0 ↔ w.toNat ≤ extMax := by
  simp only [bits, extMax]
  omega

/-- A word's bits from 18 up fit in 11 bits exactly when the word fits in 29. -/
theorem toNat_ushiftRight_stdShift_le_iff :
    (w >>> stdShift).toNat ≤ stdMax ↔ w.toNat ≤ extMax := by
  rw [BitVec.toNat_ushiftRight, Nat.shiftRight_eq_div_pow]
  simp only [stdMax, stdShift, extMax]
  omega

/-- Whichever type IDE selects, the decoder's range check is that of id[31:29] (rule R140). -/
theorem toId_eq (r : IdReg) :
    toId r = if bits r.id 31 29 = 0 then
      some (if ide r then .extended r.id else .standard (r.id >>> stdShift)) else none := by
  simp only [bits_31_29_eq_zero_iff]
  rcases Bool.eq_false_or_eq_true (ide r) with hide | hide
  · simp only [toId, hide, if_true, BitVec.ushiftRight_zero]
  · simp only [toId, hide, if_false, Bool.false_eq_true, toNat_ushiftRight_stdShift_le_iff]

theorem decodeReg_of_high_zero (operand : Option Slot) (h : bits r.id 31 29 = 0) :
    decodeReg operand r =
      .ok (if ide r then .extended r.id else .standard (r.id >>> stdShift)) := by
  rw [decodeReg, toId_eq, if_pos h]

theorem decodeReg_of_high_ne_zero (operand : Option Slot) (h : bits r.id 31 29 ≠ 0) :
    decodeReg operand r = .error (.decodeRange r.code r.id operand) := by
  rw [decodeReg, toId_eq, if_neg h]

end Decode

/-! ### The requests -/

section Requests

variable {s : State} {d : Nat} {a b : Operand} (hd : s.read d = none)
include hd

theorem exec_idregNewStd {x : Half} (ha : s.resolve a = .ok (.stdId x)) (hx : x.toNat ≤ stdMax) :
    exec (.idregNewStd d a) s = .next (s.complete d (.idReg (newStd x))) :=
  State.request1_of_slot hd ha (asStdId_eq_some.mpr ⟨rfl, hx⟩)

theorem exec_idregNewExt {x : Word} (ha : s.resolve a = .ok (.extId x)) (hx : x.toNat ≤ extMax) :
    exec (.idregNewExt d a) s = .next (s.complete d (.idReg (newExt s.config.srrOnExt x))) :=
  State.request1_of_slot hd ha (asExtId_eq_some.mpr ⟨rfl, hx⟩)

variable {r : IdReg} (ha : s.resolve a = .ok (.idReg r))
include ha

theorem exec_idregWithRtr {x : Bool} (hb : s.resolve b = .ok (.bool x)) :
    exec (.idregWithRtr d a b) s = .next (s.complete d (.idReg (withRtr r x))) :=
  State.request2_of_slots hd ha hb rfl rfl

theorem exec_idregIsExt : exec (.idregIsExt d a) s = .next (s.complete d (.bool (ide r))) :=
  State.request1_of_slot hd ha rfl

theorem exec_idregIsStd : exec (.idregIsStd d a) s = .next (s.complete d (.bool (!ide r))) :=
  State.request1_of_slot hd ha rfl

theorem exec_idregRtr : exec (.idregRtr d a) s = .next (s.complete d (.bool (rtr r))) :=
  State.request1_of_slot hd ha rfl

theorem exec_idregToId : exec (.idregToId d a) s = s.answer d ((decodeReg none r).map .id) :=
  State.request1_of_slot hd ha rfl

end Requests

/-! ### The statements -/

/-- Settles O22: every name an operand reads was bound before the request, and a request keeps every
binding. -/
theorem operandsUnchanged : Obligations.OperandsUnchanged :=
  fun _ _ _ _ _ hnext ho => State.resolve_of_read (fun _ _ => read_of_exec_next hnext) ho

/-- Settles O39: the result is determined bit by bit, RTR being the operand and every other bit a
copy. -/
theorem idregWithRtrSetsOnlyRtr : Obligations.IdregWithRtrSetsOnlyRtr := by
  intro s d a b r x hd ha hb
  refine ⟨withRtr r x, exec_idregWithRtr hd ha hb, rfl, rfl, rtr_withRtr r x, ?_, ?_, ?_, rfl⟩
  · exact fun k hk => withRtr_code_getLsbD x hk
  · exact withRtr_withRtr r x
  · rintro rfl
    exact withRtr_rtr r

/-- Settles O41, on either side of the decoder's one range check. -/
theorem idregToIdDecodes : Obligations.IdregToIdDecodes := by
  intro s d a r hd ha
  refine ⟨fun hzero => ?_, fun hne => ⟨?_, rfl⟩, rfl⟩
  · rw [exec_idregToId hd ha, decodeReg_of_high_zero none hzero]
    rfl
  · rw [exec_idregToId hd ha, decodeReg_of_high_ne_zero none hne]
    rfl

/-- Settles O37: the id word is the identifier times 2^18. -/
theorem idregNewStdEncodes : Obligations.IdregNewStdEncodes := by
  intro s d a x hd ha hx
  have hword : (x.setWidth 32 <<< 18).toNat = x.toNat * 2 ^ 18 := toNat_newStd_id hx
  refine ⟨exec_idregNewStd hd ha hx, ?_, ?_, ?_, rfl⟩ <;> rw [bits, hword] <;> omega

/-- Settles O38: the result is the encoder's for either value of SRR_ON_EXT. -/
theorem idregNewExtEncodes : Obligations.IdregNewExtEncodes := by
  intro s d a x hd ha hx
  refine ⟨?_, rfl⟩
  rw [exec_idregNewExt hd ha hx, newExt_eq]

/-- Settles O40: the accessors' functions are the tests of code bits 21 and 20, and both encoders
leave RTR clear. -/
theorem flagAccessorsTestOneBit : Obligations.FlagAccessorsTestOneBit := by
  refine ⟨fun s d a r hd ha => ?_, fun d a => ⟨rfl, rfl, rfl⟩, fun c x y => ?_⟩
  · exact ⟨exec_idregIsExt hd ha, exec_idregIsStd hd ha, exec_idregRtr hd ha⟩
  · exact ⟨rtr_newStd x, rtr_newExt c y⟩

end Sys2Proof.Machine
end

section
/-! PROOFS. Arbitration (43_arbitration.md): the comparison of numbers and of decoded identifiers,
then that of register values, what each request does in its terms, and then the statements. -/

namespace Sys2Proof.Machine

/-! ### Comparing numbers and RTR bits -/

/-- A comparison that is not Equal hides what would break its tie. -/
theorem thenCmp_of_ne_equal {c t : ArbOrder} (hc : c ≠ .equal) : thenCmp c t = c := by
  cases c with
  | equal => exact absurd rfl hc
  | less | greater => rfl

/-- "c then t" for numbers: the tie-break is what stands where neither is smaller. -/
theorem thenCmp_invCmp (p q : Nat) (t : ArbOrder) :
    thenCmp (invCmp p q) t = if p < q then .greater else if q < p then .less else t := by
  rcases Nat.lt_trichotomy p q with hlt | heq | hgt
  · rw [invCmp_eq_greater.mpr hlt, if_pos hlt, thenCmp_greater]
  · rw [invCmp_eq_equal.mpr heq, if_neg heq.not_lt, if_neg heq.not_gt, thenCmp_equal]
  · rw [invCmp_eq_less.mpr hgt, if_neg hgt.not_gt, if_pos hgt, thenCmp_less]

/-- A tie that the left side wins: it loses to a smaller number only. -/
theorem thenCmp_invCmp_greater (p q : Nat) :
    thenCmp (invCmp p q) .greater = if q < p then .less else .greater := by
  rw [thenCmp_invCmp]
  by_cases hgt : q < p
  · rw [if_neg hgt.not_gt]
  · rw [if_neg hgt, ite_self]

/-- A tie that the left side loses: it wins by a smaller number only. -/
theorem thenCmp_invCmp_less (p q : Nat) :
    thenCmp (invCmp p q) .less = if p < q then .greater else .less := by
  rw [thenCmp_invCmp, ite_self]

theorem rtrTie_eq (ra rb : Bool) :
    rtrTie ra rb = if ra = rb then .equal else if ra then .less else .greater := by
  cases ra <;> cases rb <;> rfl

/-! ### Comparing decoded identifiers -/

/-- Between equal ids the RTR bits decide (rule R151). -/
theorem compareIds_self (i : CanId) (ra rb : Bool) : compareIds i i ra rb = rtrTie ra rb := by
  cases i <;> simp only [compareIds, invCmp_eq_equal.mpr, thenCmp_equal]

/-- Between different ids the RTR bits have no part: different values of one type do not tie, and a
tie of two types is broken by the type (rules R151 and R152). -/
theorem compareIds_of_ne {i j : CanId} (hne : i ≠ j) (ra rb ra' rb' : Bool) :
    compareIds i j ra rb = compareIds i j ra' rb' := by
  have hdecided : ∀ {x y : Word}, x ≠ y → invCmp x.toNat y.toNat ≠ .equal := by
    intro x y hxy heq
    exact hxy (BitVec.eq_of_toNat_eq (invCmp_eq_equal.mp heq))
  cases i <;> cases j
  case standard.standard x y =>
    have hc := hdecided fun hxy => hne (congrArg CanId.standard hxy)
    simp only [compareIds, thenCmp_of_ne_equal hc]
  case extended.extended x y =>
    have hc := hdecided fun hxy => hne (congrArg CanId.extended hxy)
    simp only [compareIds, thenCmp_of_ne_equal hc]
  all_goals rfl

/-! ### Comparing register values -/

section CmpReg

variable {a b : IdReg}

theorem decodable_iff {r : IdReg} : decodable r = true ↔ bits r.id 31 29 = 0 := beq_iff_eq

/-- On values that decode, the comparison is that of the identifiers. -/
theorem cmpReg_of_toId {i j : CanId} (ha : toId a = some i) (hb : toId b = some j) :
    cmpReg a b = .ok (compareIds i j (rtr a) (rtr b)) := by
  simp only [cmpReg, decodeReg, ha, hb]

/-- Operand a is decoded first (60_exceptions.md rule R174). -/
theorem cmpReg_of_left_high_ne_zero (ha : bits a.id 31 29 ≠ 0) :
    cmpReg a b = .error (.decodeRange a.code a.id (some .a)) := by
  simp only [cmpReg, decodeReg_of_high_ne_zero _ ha]

theorem cmpReg_of_right_high_ne_zero (ha : bits a.id 31 29 = 0) (hb : bits b.id 31 29 ≠ 0) :
    cmpReg a b = .error (.decodeRange b.code b.id (some .b)) := by
  simp only [cmpReg, decodeReg_of_high_zero _ ha, decodeReg_of_high_ne_zero _ hb]

theorem toId_of_high_zero {r : IdReg} (h : bits r.id 31 29 = 0) :
    toId r = some (if ide r then .extended r.id else .standard (r.id >>> stdShift)) := by
  rw [toId_eq, if_pos h]

/-- The decoder does not read RTR (rule R142). -/
@[simp] theorem toId_withRtr (r : IdReg) (b : Bool) : toId (withRtr r b) = toId r := by
  simp only [toId_eq, withRtr_id, ide_withRtr]

theorem toNat_ushiftRight_stdShift (w : Word) : (w >>> stdShift).toNat = w.toNat / 2 ^ 18 := by
  rw [BitVec.toNat_ushiftRight, Nat.shiftRight_eq_div_pow]

/-- The comparison of decodable values, with no decoder left in it: one type compares the
identifiers and then RTR, two types the 11-bit ids and then the type (rule R150). -/
theorem cmpReg_of_high_zero (ha : bits a.id 31 29 = 0) (hb : bits b.id 31 29 = 0) :
    cmpReg a b = .ok (if ide a = ide b then
        thenCmp (invCmp (identifierBits a) (identifierBits b)) (rtrTie (rtr a) (rtr b))
      else
        thenCmp (invCmp (a.id.toNat / 2 ^ 18) (b.id.toNat / 2 ^ 18))
          (if ide a then .less else .greater)) := by
  rw [cmpReg_of_toId (toId_of_high_zero ha) (toId_of_high_zero hb), identifierBits, identifierBits]
  rcases Bool.eq_false_or_eq_true (ide a) with hideA | hideA <;>
    rcases Bool.eq_false_or_eq_true (ide b) with hideB | hideB <;>
    simp only [hideA, hideB, if_true, if_false, Bool.false_eq_true, Bool.true_eq_false, compareIds,
      toNat_ushiftRight_stdShift, toNat_baseId]

theorem eqReg_eq_decide (a b : IdReg) : eqReg a b = decide (a.code = b.code ∧ a.id = b.id) := by
  rw [Bool.decide_and]
  rfl

end CmpReg

/-! ### The requests -/

section Requests

variable {s : State} {d : Nat} {a b : Operand} {x y : IdReg} (hd : s.read d = none)
  (ha : s.resolve a = .ok (.idReg x)) (hb : s.resolve b = .ok (.idReg y))
include hd ha hb

theorem exec_idregCmp :
    exec (.idregCmp d a b) s = s.answer d ((cmpReg x y).map .ordering) :=
  State.request2_of_slots hd ha hb rfl rfl

theorem exec_idregEq : exec (.idregEq d a b) s = .next (s.complete d (.bool (eqReg x y))) :=
  State.request2_of_slots hd ha hb rfl rfl

end Requests

/-! ### The statements -/

/-- Settles O42: a request that decodes both operands completes with the comparison of their
numbers, and the first operand that does not decode is its fault. -/
theorem idregCmpOrders : Obligations.IdregCmpOrders := by
  intro s d a b x y hd ha hb
  refine ⟨fun hx hy => ?_, fun hx => ?_, fun hx hy => ?_, rfl, rfl, rfl⟩ <;>
    rw [exec_idregCmp hd ha hb]
  · rw [cmpReg_of_high_zero hx hy, thenCmp_invCmp, thenCmp_invCmp, rtrTie_eq]
    rfl
  · rw [cmpReg_of_left_high_ne_zero hx]
    rfl
  · rw [cmpReg_of_right_high_ne_zero hx hy]
    rfl

/-- Settles O54: the type breaks the tie of the 11-bit ids, on either side. -/
theorem crossTypeStandardWins : Obligations.CrossTypeStandardWins := by
  intro a b ha hb hstd hext
  have ha := decodable_iff.mp ha
  have hb := decodable_iff.mp hb
  constructor
  · rw [cmpReg_of_high_zero ha hb, hstd, hext, if_neg Bool.false_ne_true,
      if_neg Bool.false_ne_true, thenCmp_invCmp_greater]
  · rw [cmpReg_of_high_zero hb ha, hstd, hext, if_neg Bool.false_ne_true.symm, if_pos rfl,
      thenCmp_invCmp_less]

/-- Settles O55: both values decode, to ids that no RTR bit changes; equal ids compare by RTR, and
different ids without it. -/
theorem rtrTieBreakOnEqualIds : Obligations.RtrTieBreakOnEqualIds := by
  intro a b ha hb
  obtain ⟨i, hi⟩ : ∃ i, toId a = some i := ⟨_, toId_of_high_zero (decodable_iff.mp ha)⟩
  obtain ⟨j, hj⟩ : ∃ j, toId b = some j := ⟨_, toId_of_high_zero (decodable_iff.mp hb)⟩
  refine ⟨fun heq => ?_, fun hne p q => ?_⟩
  · have hcmp : cmpReg a b = .ok (rtrTie (rtr a) (rtr b)) := by
      rw [cmpReg_of_toId (heq.trans hj) hj, compareIds_self]
    rw [hcmp, rtrTie_eq]
    refine ⟨fun h => ?_, fun h h' => ?_, fun h h' => ?_⟩
    · rw [if_pos h]
    · rw [h, h']
      rfl
    · rw [h, h']
      rfl
  · have hids : i ≠ j := by
      rintro rfl
      exact hne (hi.trans hj.symm)
    rw [cmpReg_of_toId hi hj,
      cmpReg_of_toId ((toId_withRtr a p).trans hi) ((toId_withRtr b q).trans hj),
      compareIds_of_ne hids]

/-- Settles O43: the request completes on any operands, with the equality of both words. -/
theorem idregEqComparesBothWords : Obligations.IdregEqComparesBothWords := by
  intro s d a b x y hd ha hb
  refine ⟨?_, rfl⟩
  rw [exec_idregEq hd ha hb, eqReg_eq_decide]

end Sys2Proof.Machine
end

section
/-! PROOFS. Exceptions (60_exceptions.md): the causes of a fault (rule R171), that the block and a
host program fault on exactly those, and the priority of the conditions (rule R174). -/

namespace Sys2Proof.Machine

/-! ### The causes of a fault -/

/-- The rows of rule R171: the operation, the values presented to it, and the fault they raise. -/
inductive FaultCause : Op → List Value → FaultInfo → Prop
  | stdRange (x : Half) : stdMax < x.toNat →
      FaultCause .stdNewUnchecked [.u16 x] (.uncheckedStdRange x)
  | extRange (x : Word) : extMax < x.toNat →
      FaultCause .extNewUnchecked [.u32 x] (.uncheckedExtRange x)
  | toId (r : IdReg) : bits r.id 31 29 ≠ 0 →
      FaultCause .idregToId [.idReg r] (.decodeRange r.code r.id none)
  | cmpLeft (x y : IdReg) : bits x.id 31 29 ≠ 0 →
      FaultCause .idregCmp [.idReg x, .idReg y] (.decodeRange x.code x.id (some .a))
  | cmpRight (x y : IdReg) : bits x.id 31 29 = 0 → bits y.id 31 29 ≠ 0 →
      FaultCause .idregCmp [.idReg x, .idReg y] (.decodeRange y.code y.id (some .b))

variable {c : Config} {op : Op} {vs vs' : List Value} {f f' : FaultInfo}

/-- No operation has two fault codes (rule R174): the causes of one operation share theirs. -/
theorem FaultCause.faultCode_eq (h : FaultCause op vs f) (h' : FaultCause op vs' f') :
    faultCode f = faultCode f' := by
  cases h <;> cases h' <;> rfl

/-! ### The faults of the operations' functions -/

theorem stdNewUnchecked_eq_error {x : Half} :
    stdNewUnchecked x = .error f ↔ stdMax < x.toNat ∧ f = .uncheckedStdRange x := by
  rcases Nat.lt_or_ge stdMax x.toNat with hgt | hle
  · simp [stdNewUnchecked_of_gt hgt, hgt, eq_comm]
  · simp [stdNewUnchecked_of_le hle, hle.not_gt]

theorem extNewUnchecked_eq_error {x : Word} :
    extNewUnchecked x = .error f ↔ extMax < x.toNat ∧ f = .uncheckedExtRange x := by
  rcases Nat.lt_or_ge extMax x.toNat with hgt | hle
  · simp [extNewUnchecked_of_gt hgt, hgt, eq_comm]
  · simp [extNewUnchecked_of_le hle, hle.not_gt]

theorem decodeReg_eq_error {operand : Option Slot} {r : IdReg} :
    decodeReg operand r = .error f ↔
      bits r.id 31 29 ≠ 0 ∧ f = .decodeRange r.code r.id operand := by
  by_cases h : bits r.id 31 29 = 0
  · simp [decodeReg_of_high_zero operand h, h]
  · simp [decodeReg_of_high_ne_zero operand h, h, eq_comm]

theorem cmpReg_eq_error {a b : IdReg} :
    cmpReg a b = .error f ↔
      (bits a.id 31 29 ≠ 0 ∧ f = .decodeRange a.code a.id (some .a)) ∨
      (bits a.id 31 29 = 0 ∧ bits b.id 31 29 ≠ 0 ∧ f = .decodeRange b.code b.id (some .b)) := by
  by_cases ha : bits a.id 31 29 = 0
  · by_cases hb : bits b.id 31 29 = 0
    · simp [cmpReg_of_high_zero ha hb, ha, hb]
    · simp [cmpReg_of_right_high_ne_zero ha hb, ha, hb, eq_comm]
  · simp [cmpReg_of_left_high_ne_zero ha, ha, eq_comm]

theorem except_map_eq_error {ε α β : Type} {g : α → β} {r : Except ε α} {e : ε} :
    r.map g = .error e ↔ r = .error e := by
  cases r <;> simp [Except.map]

/-! ### The faults of the block -/

theorem ofResult_eq_fault {r : Except FaultInfo Value} :
    Response.ofResult r = .fault f ↔ r = .error f := by
  cases r <;> simp [Response.ofResult]

/-- Wrapping a result in a value changes no fault. -/
theorem ofResult_map_eq_fault {α : Type} {g : α → Value} {r : Except FaultInfo α} :
    Response.ofResult (r.map g) = .fault f ↔ r = .error f :=
  ofResult_eq_fault.trans except_map_eq_error

theorem run0_ok_ne_fault (v : Value) : run0 (.ok v) vs ≠ .fault f := by
  cases vs <;> simp [run0, Response.ofResult]

theorem run1_eq_fault {α : Type} {slot : Value → Option α} {run : α → Except FaultInfo Value} :
    run1 slot run vs = .fault f ↔ ∃ v x, vs = [v] ∧ slot v = some x ∧ run x = .error f := by
  match vs with
  | [] | _ :: _ :: _ => simp [run1]
  | [v] => cases hx : slot v <;> simp [run1, hx, ofResult_eq_fault]

theorem run2_eq_fault {α β : Type} {slotA : Value → Option α} {slotB : Value → Option β}
    {run : α → β → Except FaultInfo Value} :
    run2 slotA slotB run vs = .fault f ↔
      ∃ v w x y, vs = [v, w] ∧ slotA v = some x ∧ slotB w = some y ∧ run x y = .error f := by
  match vs with
  | [] | [_] | _ :: _ :: _ :: _ => simp [run2]
  | [v, w] =>
    cases hx : slotA v <;> cases hy : slotB w <;> simp [run2, hx, hy, ofResult_eq_fault]

/-- An operation faults on nothing but the causes of rule R171. -/
theorem faultCause_of_runOp (h : runOp c op vs = .fault f) : FaultCause op vs f := by
  cases op with
  | stdNewUnchecked =>
    obtain ⟨v, x, rfl, hx, hrun⟩ := run1_eq_fault.mp h
    obtain rfl := asU16_eq_some.mp hx
    obtain ⟨hgt, rfl⟩ := stdNewUnchecked_eq_error.mp (except_map_eq_error.mp hrun)
    exact .stdRange x hgt
  | extNewUnchecked =>
    obtain ⟨v, x, rfl, hx, hrun⟩ := run1_eq_fault.mp h
    obtain rfl := asU32_eq_some.mp hx
    obtain ⟨hgt, rfl⟩ := extNewUnchecked_eq_error.mp (except_map_eq_error.mp hrun)
    exact .extRange x hgt
  | idregToId =>
    obtain ⟨v, r, rfl, hr, hrun⟩ := run1_eq_fault.mp h
    obtain rfl := asIdReg_eq_some.mp hr
    obtain ⟨hne, rfl⟩ := decodeReg_eq_error.mp (except_map_eq_error.mp hrun)
    exact .toId r hne
  | idregCmp =>
    obtain ⟨v, w, x, y, rfl, hx, hy, hrun⟩ := run2_eq_fault.mp h
    obtain rfl := asIdReg_eq_some.mp hx
    obtain rfl := asIdReg_eq_some.mp hy
    obtain ⟨hne, rfl⟩ | ⟨hzero, hne, rfl⟩ := cmpReg_eq_error.mp (except_map_eq_error.mp hrun)
    · exact .cmpLeft x y hne
    · exact .cmpRight x y hzero hne
  | idDefault => exact absurd h (run0_ok_ne_fault _)
  | idregWithRtr | idregEq =>
    obtain ⟨_, _, _, _, _, _, _, hrun⟩ := run2_eq_fault.mp h
    cases hrun
  | _ =>
    obtain ⟨_, _, _, _, hrun⟩ := run1_eq_fault.mp h
    cases hrun

/-- Each cause of rule R171 raises its fault. -/
theorem FaultCause.runOp_eq (h : FaultCause op vs f) : runOp c op vs = .fault f := by
  cases h with
  | stdRange x hgt => exact ofResult_map_eq_fault.mpr (stdNewUnchecked_eq_error.mpr ⟨hgt, rfl⟩)
  | extRange x hgt => exact ofResult_map_eq_fault.mpr (extNewUnchecked_eq_error.mpr ⟨hgt, rfl⟩)
  | toId r hne => exact ofResult_map_eq_fault.mpr (decodeReg_eq_error.mpr ⟨hne, rfl⟩)
  | cmpLeft x y hne => exact ofResult_map_eq_fault.mpr (cmpReg_eq_error.mpr (.inl ⟨hne, rfl⟩))
  | cmpRight x y hzero hne =>
    exact ofResult_map_eq_fault.mpr (cmpReg_eq_error.mpr (.inr ⟨hzero, hne, rfl⟩))

/-- The check at the boundary refuses only what the operation refuses as well. -/
theorem respond_select : respond c op.select vs = runOp c op vs := by
  cases hv : slotsAccepted op.slotTypes vs with
  | true => simp [respond, hv]
  | false =>
    rw [(respond_eq_refused (Op.ofSelect_select op)).mpr ⟨rfl, hv⟩,
      runOp_eq_refused.mpr ⟨rfl, hv⟩]

theorem respond_eq_fault : respond c op.select vs = .fault f ↔ FaultCause op vs f := by
  rw [respond_select]
  exact ⟨faultCause_of_runOp, FaultCause.runOp_eq⟩

/-! ### The faults of a host program -/

section Program

variable {s t : State} {d : Nat} {a b : Operand} {v w : Value} {i : Instr}

theorem State.resolveAll_one_eq_ok : s.resolveAll [a] = .ok [v] ↔ s.resolve a = .ok v := by
  cases ha : s.resolve a <;> simp [State.resolveAll, ha]

theorem State.resolveAll_two_eq_ok :
    s.resolveAll [a, b] = .ok [v, w] ↔ s.resolve a = .ok v ∧ s.resolve b = .ok w := by
  cases ha : s.resolve a <;> cases hb : s.resolve b <;> simp [State.resolveAll, ha, hb]

/-- A response that leaves a fault in an empty record is that fault. -/
theorem State.take_records {q : Response} {r : FaultRecord} (h : s.take d q = .next t)
    (hs : s.faultRecord = none) (ht : t.faultRecord = some r) :
    ∃ f, q = .fault f ∧ r = ⟨s.index, f⟩ := by
  cases q with
  | ok v =>
    obtain rfl : s.complete d v = t := Host.Outcome.next.inj h
    simp [hs] at ht
  | fault f =>
    obtain rfl : s.raise f = t := Host.Outcome.next.inj h
    exact ⟨f, rfl, by simpa [hs, eq_comm] using ht⟩
  | refused reason => cases reason <;> cases h

/-- An instruction that leaves a fault in an empty record presented a cause of that fault. -/
theorem exec_records {r : FaultRecord} (h : exec i s = .next t) (hs : s.faultRecord = none)
    (ht : t.faultRecord = some r) :
    ∃ vs f, s.resolveAll i.operands = .ok vs ∧ FaultCause i.op vs f ∧ r = ⟨s.index, f⟩ := by
  rw [exec_eq_presentValues i s (exec_next_answer h).1] at h
  cases hvs : s.resolveAll i.operands with
  | error q =>
    rw [hvs] at h
    cases h
  | ok vs =>
    rw [hvs] at h
    obtain ⟨f, hf, hr⟩ := State.take_records h hs ht
    exact ⟨vs, f, rfl, faultCause_of_runOp hf, hr⟩

end Program

/-! ### The statements -/

/-- Settles O8: the select is checked first and the slots second, nothing after them refuses, and
the causes of a fault hold the order of the operands and one code per operation. -/
theorem conditionPriority : Obligations.ConditionPriority := by
  refine ⟨fun _ _ _ => respond_of_reserved, ?_, ?_, ?_, ?_, ?_⟩
  · intro c sel op vs hop hbad
    rw [← slotsAccepted_iff, Bool.not_eq_true] at hbad
    exact (respond_eq_refused hop).mpr ⟨rfl, hbad⟩
  · intro c sel op vs hop htypes hok q hrefused
    have hrejected := ((respond_eq_refused hop).mp hrefused).2
    rw [slotsAccepted_iff.mpr ⟨htypes, hok⟩] at hrejected
    cases hrejected
  · exact fun c a b ha => respond_eq_fault (op := .idregCmp).mpr (.cmpLeft a b ha)
  · exact fun c a b ha hb => respond_eq_fault (op := .idregCmp).mpr (.cmpRight a b ha hb)
  · intro c c' op vs vs' f f' h h'
    exact (respond_eq_fault.mp h).faultCode_eq (respond_eq_fault.mp h')

/-- Settles O23: the operation of the request that faulted tells which cause it presented; and each
cause raises its fault at the block. -/
theorem faultCausesAndInfo : Obligations.FaultCausesAndInfo := by
  refine ⟨?_, ?_, ?_, ?_, ?_⟩
  · intro i s t r h hs ht
    obtain ⟨vs, f, hvs, hcause, rfl⟩ := exec_records h hs ht
    cases i with
    | stdNewUnchecked d a =>
      cases hcause with
      | stdRange x hgt =>
        exact .inl ⟨d, a, x, rfl, State.resolveAll_one_eq_ok.mp hvs, hgt, rfl, rfl⟩
    | extNewUnchecked d a =>
      cases hcause with
      | extRange x hgt =>
        exact .inr (.inl ⟨d, a, x, rfl, State.resolveAll_one_eq_ok.mp hvs, hgt, rfl, rfl⟩)
    | idregToId d a =>
      cases hcause with
      | toId r hne =>
        exact .inr (.inr (.inl ⟨d, a, r, rfl, State.resolveAll_one_eq_ok.mp hvs, hne, rfl, rfl⟩))
    | idregCmp d a b =>
      refine .inr (.inr (.inr ?_))
      cases hcause with
      | cmpLeft x y hne =>
        obtain ⟨ha, hb⟩ := State.resolveAll_two_eq_ok.mp hvs
        exact ⟨d, a, b, x, y, rfl, ha, hb, rfl, .inl ⟨hne, rfl⟩⟩
      | cmpRight x y hzero hne =>
        obtain ⟨ha, hb⟩ := State.resolveAll_two_eq_ok.mp hvs
        exact ⟨d, a, b, x, y, rfl, ha, hb, rfl, .inr ⟨hzero, hne, rfl⟩⟩
    | _ => cases hcause
  · exact fun c x hgt => respond_eq_fault (op := .stdNewUnchecked).mpr (.stdRange x hgt)
  · exact fun c x hgt => respond_eq_fault (op := .extNewUnchecked).mpr (.extRange x hgt)
  · exact fun c r hne => respond_eq_fault (op := .idregToId).mpr (.toId r hne)
  · intro c a b hbad
    by_cases ha : bits a.id 31 29 = 0
    · have hb := hbad.resolve_left (not_not_intro ha)
      exact ⟨_, respond_eq_fault (op := .idregCmp).mpr (.cmpRight a b ha hb), rfl⟩
    · exact ⟨_, respond_eq_fault (op := .idregCmp).mpr (.cmpLeft a b ha), rfl⟩

end Sys2Proof.Machine
end

section
/-! PROOFS. Encoding and decoding (30_encoding.md): decoder and encoder of lines are inverse, then
those of bit-packed requests and of result bits, and the byte order of a word. -/

namespace Sys2Proof

open Sys2Proof.Machine

/-! ### Lines -/

section Lines

variable {op : Op} {d : Nat} {os : List Operand} {i : Instr} {f : Frame}

/-- An instruction is built from its operation, its result name and its operands. -/
theorem Op.instr_op (i : Instr) : i.op.instr i.dst i.operands = some i := by
  cases i <;> rfl

/-- As many operands as the row has slots are an instruction. -/
theorem Op.instr_of_length (d : Nat) (h : os.length = op.slotTypes.length) :
    ∃ i, op.instr d os = some i := by
  cases op with
  | idDefault =>
    obtain rfl := List.length_eq_zero_iff.mp h
    exact ⟨_, rfl⟩
  | idregWithRtr | idregCmp | idregEq =>
    obtain ⟨a, b, rfl⟩ := List.length_eq_two.mp h
    exact ⟨_, rfl⟩
  | _ =>
    obtain ⟨a, rfl⟩ := List.length_eq_one_iff.mp h
    exact ⟨_, rfl⟩

/-- Operands that fill slots are one per slot. -/
theorem length_of_slotsFit {ts : List ValueType} (h : slotsFit ts os = true) :
    os.length = ts.length := by
  induction ts generalizing os with
  | nil =>
    cases os with
    | nil => rfl
    | cons o os => cases h
  | cons t ts ih =>
    cases os with
    | nil => cases h
    | cons o os =>
      simp only [slotsFit, Bool.and_eq_true] at h
      simp only [List.length_cons, ih h.2]

/-- The decoder on the line of any instruction: it gives the instruction if that is well formed. -/
theorem decode_encode (i : Instr) :
    decode (encode i) = if i.wf then .ok i else .error .operandType := by
  simp only [decode, encode, Op.ofSelect_select, Op.instr_op]

/-- A line decodes to the well-formed instruction that it encodes, and to no other. -/
theorem decode_eq_ok : decode f = .ok i ↔ i.wf = true ∧ encode i = f := by
  constructor
  · intro h
    unfold decode at h
    split at h
    · cases h
    · split at h
      · cases h
      · split at h
        · cases h
          obtain ⟨hop, hdst, hslots⟩ := Op.instr_eq_some ‹_›
          have hsel := Op.select_of_ofSelect ‹_›
          exact ⟨‹_›, by rw [encode, hop, hdst, hslots, ← hsel]⟩
        · cases h
  · rintro ⟨hwf, rfl⟩
    rw [decode_encode, if_pos hwf]

/-- A line whose select names an operation decodes, unless its operands do not fit the row. -/
theorem decode_of_slotsFit (hop : Op.ofSelect f.select = some op)
    (hfit : slotsFit op.slotTypes f.slots = true) : ∃ i, decode f = .ok i := by
  obtain ⟨i, hi⟩ := Op.instr_of_length f.dst (length_of_slotsFit hfit)
  obtain ⟨rfl, -, hslots⟩ := Op.instr_eq_some hi
  have hwf : i.wf = true := by rw [Instr.wf, hslots, hfit]
  exact ⟨i, by simp [decode, hop, hi, hwf]⟩

/-- A line refused as OperandType names an operation whose row its operands do not fit. -/
theorem decode_eq_operandType (h : decode f = .error .operandType) :
    ∃ op, Op.ofSelect f.select = some op ∧ slotsFit op.slotTypes f.slots = false := by
  cases hop : Op.ofSelect f.select with
  | none => simp [decode, hop] at h
  | some op =>
    refine ⟨op, rfl, Bool.eq_false_of_not_eq_true fun hfit => ?_⟩
    obtain ⟨i, hi⟩ := decode_of_slotsFit hop hfit
    rw [hi] at h
    cases h

end Lines

/-! ### Bit-packed requests -/

section Words

variable {ts : List ValueType} {os : List Operand}

/-- A value's bits can be cut off from what stands above them. -/
theorem Value.bits_add_div (v : Value) (rest : Nat) :
    (v.bits + 2 ^ v.type.width * rest) / 2 ^ v.type.width = rest := by
  rw [Nat.add_mul_div_left _ _ (Nat.two_pow_pos _), Nat.div_eq_of_lt v.bits_lt, Nat.zero_add]

/-- The packed bits of literals that fit their slots are read back as those literals. -/
theorem slotsOfBits_bitsOfSlots (hfit : slotsFit ts os = true) (hlit : ∀ o ∈ os, ∃ v, o = .lit v) :
    ∃ w, bitsOfSlots os = some w ∧ slotsOfBits ts w = os := by
  induction ts generalizing os with
  | nil =>
    obtain rfl := List.length_eq_zero_iff.mp (length_of_slotsFit hfit)
    exact ⟨0, rfl, rfl⟩
  | cons t ts ih =>
    cases os with
    | nil => cases hfit
    | cons o os =>
      obtain ⟨v, rfl⟩ := hlit o List.mem_cons_self
      simp only [slotsFit, Operand.fits, Bool.and_eq_true, beq_iff_eq] at hfit
      obtain ⟨⟨rfl, -⟩, hrest⟩ := hfit
      obtain ⟨w, hw, hos⟩ := ih hrest fun o ho => hlit o (List.mem_cons_of_mem _ ho)
      refine ⟨v.bits + 2 ^ v.type.width * w, by rw [bitsOfSlots, hw]; rfl, ?_⟩
      rw [slotsOfBits, Value.ofBits_bits, Value.bits_add_div, hos]

/-- A request with an operation's select in its low byte is read as that operation's. -/
theorem frameOfWord_select (d : Nat) (op : Op) (w : Nat) :
    frameOfWord d (op.select.toNat + 2 ^ 8 * w) =
      { dst := d, select := op.select, slots := slotsOfBits op.slotTypes w } := by
  have hsel : BitVec.ofNat 8 (op.select.toNat + 2 ^ 8 * w) = op.select := by
    apply BitVec.eq_of_toNat_eq
    rw [BitVec.toNat_ofNat, Nat.add_mul_mod_self_left, Nat.mod_eq_of_lt op.select.isLt]
  have hslots : (op.select.toNat + 2 ^ 8 * w) / 2 ^ 8 = w := by
    rw [Nat.add_mul_div_left _ _ (Nat.two_pow_pos 8), Nat.div_eq_of_lt op.select.isLt, Nat.zero_add]
  simp only [frameOfWord, hsel, Op.ofSelect_select, hslots]

end Words

/-! ### The statements -/

/-- Settles O3: the line holds the operation, the result name and the operands, and the decoder's
check of them is the instruction's own. -/
theorem decodeInvertsEncode : Obligations.DecodeInvertsEncode := by
  intro i
  constructor
  · intro hwf
    rw [decode_encode, if_pos hwf]
  · intro hwf
    rw [decode_encode, hwf]
    rfl

/-- Settles O4: the decoder builds the instruction from all three parts of the line. -/
theorem encodeInvertsDecode : Obligations.EncodeInvertsDecode :=
  fun _ _ h => decode_eq_ok.mp h

/-- Settles O5: the request is read as the instruction's line, slot by slot. -/
theorem requestWordRoundTrip : Obligations.RequestWordRoundTrip := by
  intro i hwf hlit
  obtain ⟨w, hw, hslots⟩ := slotsOfBits_bitsOfSlots hwf hlit
  refine ⟨i.op.select.toNat + 2 ^ 8 * w, by rw [encodeWord, hw]; rfl, ?_⟩
  rw [decodeWord, frameOfWord_select, hslots]
  exact decode_eq_ok.mpr ⟨hwf, rfl⟩

/-- Settles O1, by running the decoder. -/
theorem sampleRequestsDecode : Obligations.SampleRequestsDecode :=
  ⟨rfl, rfl, rfl, rfl, rfl⟩

/-- Settles O58: a value is read back from its bits and its type. -/
theorem resultBitsDetermineValue : Obligations.ResultBitsDetermineValue := by
  refine ⟨fun v w htype hbits => ?_, fun v => Nat.div_eq_of_lt v.bits_lt, ?_,
    fun x => ⟨rfl, rfl, rfl⟩, fun x => ⟨rfl, rfl, rfl⟩, rfl, rfl, fun x => ⟨rfl, rfl, rfl, rfl⟩,
    fun r => rfl, rfl, rfl, rfl, ?_⟩
  · calc v = Value.ofBits v.type (v.bits + 2 ^ v.type.width * 0) := (v.ofBits_bits 0).symm
      _ = Value.ofBits w.type (w.bits + 2 ^ w.type.width * 0) := by rw [htype, hbits]
      _ = w := w.ofBits_bits 0
  · intro b
    cases b <;> rfl
  · intro o
    cases o <;> decide

/-- The bytes of a word, the most significant first, are the word. -/
theorem byteOf_append (w : Word) : byteOf w 3 ++ byteOf w 2 ++ byteOf w 1 ++ byteOf w 0 = w := by
  -- each bit of the four bytes is the word's bit that stands there
  apply BitVec.eq_of_getLsbD_eq
  intro k hk
  simp only [byteOf, BitVec.getLsbD_append, BitVec.getLsbD_setWidth, BitVec.getLsbD_ushiftRight]
  split_ifs <;> grind

theorem wordOfBytes_wordToBytes (o : ByteOrder) (w : Word) :
    wordOfBytes o (wordToBytes o w) = some w := by
  cases o <;> exact congrArg some (byteOf_append w)

/-- Settles O59: in either order the four bytes put together are the word. -/
theorem wordBytesRoundTrip : Obligations.WordBytesRoundTrip := by
  intro o w
  refine ⟨?_, wordOfBytes_wordToBytes o w, rfl, wordOfBytes_wordToBytes Config.wordByteOrder w⟩
  cases o <;> rfl

end Sys2Proof
end

section
/-! PROOFS. The laws of the codec (42_idreg_codec.md): what the decoder reads, which register values
an encoder and RTR writes produce, and which bits they carry over. -/

namespace Sys2Proof.Machine

/-! ### What the decoder reads -/

section Decode

variable {r q : IdReg}

theorem toId_eq_none_iff : toId r = none ↔ bits r.id 31 29 ≠ 0 := by
  rw [toId_eq]
  by_cases h : bits r.id 31 29 = 0 <;> simp [h]

/-- An identifier the decoder gives meets its invariant. -/
theorem ok_of_toId {i : CanId} (h : toId r = some i) : i.ok = true := by
  have hzero : bits r.id 31 29 = 0 := by
    by_contra hne
    rw [toId_eq_none_iff.mpr hne] at h
    cases h
  have hle := bits_31_29_eq_zero_iff.mp hzero
  rw [toId_of_high_zero hzero] at h
  rcases Bool.eq_false_or_eq_true (ide r) with hide | hide <;> rw [hide] at h <;> cases h
  · exact decide_eq_true hle
  · exact decide_eq_true (toNat_ushiftRight_stdShift_le_iff.mpr hle)

/-- The decoder reads IDE and the identifier bits, which hold id[31:29] too (rule R142). -/
theorem toId_congr (hide : ide r = ide q) (hid : identifierBits r = identifierBits q) :
    toId r = toId q := by
  rcases Bool.eq_false_or_eq_true (ide q) with hq | hq
  · simp only [identifierBits, hide, hq, if_true] at hid
    rw [toId_eq, toId_eq, BitVec.eq_of_toNat_eq hid, hide]
  · simp only [identifierBits, hide, hq, if_false, Bool.false_eq_true] at hid
    have hstd : r.id >>> stdShift = q.id >>> stdShift := by
      apply BitVec.eq_of_toNat_eq
      rw [toNat_ushiftRight_stdShift, toNat_ushiftRight_stdShift, hid]
    have hhigh : bits r.id 31 29 = bits q.id 31 29 := by
      simp only [bits]
      omega
    simp only [toId_eq, hide, hq, hstd, hhigh, if_false, Bool.false_eq_true]

end Decode

/-! ### Encoders and RTR writes -/

section Encode

variable {x : Half} {y : Word} {c : Bool} {r : IdReg}

theorem newStd_id_le (hx : x.toNat ≤ stdMax) : (newStd x).id.toNat ≤ extMax := by
  simp only [stdMax] at hx
  simp only [toNat_newStd_id hx, extMax]
  omega

/-- A standard identifier is in the id bits from 18 up (rule R25). -/
theorem newStd_id_div (hx : x.toNat ≤ stdMax) : (newStd x).id.toNat / 2 ^ 18 = x.toNat := by
  rw [toNat_newStd_id hx, Nat.mul_div_cancel _ (Nat.two_pow_pos 18)]

/-- Decoding a standard encoding gives the identifier back (rule R143). -/
theorem toId_newStd (hx : x.toNat ≤ stdMax) :
    toId (newStd x) = some (.standard (x.setWidth 32)) := by
  have hstd : (newStd x).id >>> stdShift = x.setWidth 32 := by
    apply BitVec.eq_of_toNat_eq
    rw [toNat_ushiftRight_stdShift, newStd_id_div hx, BitVec.toNat_setWidth_of_le (by decide)]
  rw [toId_of_high_zero (bits_31_29_eq_zero_iff.mpr (newStd_id_le hx)), ide_newStd, hstd]
  rfl

/-- Decoding an extended encoding gives the identifier back (rule R143). -/
theorem toId_newExt (c : Bool) (hy : y.toNat ≤ extMax) :
    toId (newExt c y) = some (.extended y) := by
  have hzero : bits (newExt c y).id 31 29 = 0 := by
    rw [newExt_id]
    exact bits_31_29_eq_zero_iff.mpr hy
  rw [toId_of_high_zero hzero, ide_newExt, newExt_id]
  rfl

/-- No number of RTR writes changes what a value decodes to. -/
theorem toId_foldl_withRtr (bs : List Bool) (r : IdReg) : toId (bs.foldl withRtr r) = toId r := by
  induction bs generalizing r with
  | nil => rfl
  | cons b bs ih => rw [List.foldl_cons, ih, toId_withRtr]

/-- A standard encoding with its RTR bit as the last write left it. -/
theorem withRtr_newStd (x : Half) (b : Bool) :
    withRtr (newStd x) b = ⟨if b then 0x00100000 else 0x00000000, x.setWidth 32 <<< 18⟩ := by
  have hcode : ∀ b : Bool, setRtr 0 b = if b then 0x00100000 else 0x00000000 := by decide
  exact congrArg (IdReg.mk · (newStd x).id) (hcode b)

/-- An extended encoding with its RTR bit as the last write left it. -/
theorem withRtr_newExt (c : Bool) (y : Word) (b : Bool) :
    withRtr (newExt c y) b = ⟨if c then (if b then 0x00700000 else 0x00600000)
      else (if b then 0x00300000 else 0x00200000), y⟩ := by
  have hcode : ∀ c b : Bool, setRtr (if c then 0x00600000 else 0x00200000) b =
      if c then (if b then 0x00700000 else 0x00600000)
      else (if b then 0x00300000 else 0x00200000) := by decide
  rw [newExt_eq]
  exact congrArg (IdReg.mk · y) (hcode c b)

/-- The encoder-produced values are the encodings with one RTR write: an encoding alone has the RTR
it would be given, and of several writes the last one counts. -/
theorem encoderProduced_iff : EncoderProduced c r ↔
    (∃ (x : Half) (b : Bool), x.toNat ≤ stdMax ∧ r = withRtr (newStd x) b) ∨
    (∃ (y : Word) (b : Bool), y.toNat ≤ extMax ∧ r = withRtr (newExt c y) b) := by
  constructor
  · intro h
    induction h with
    | std x hx => exact .inl ⟨x, rtr (newStd x), hx, (withRtr_rtr _).symm⟩
    | ext y hy => exact .inr ⟨y, rtr (newExt c y), hy, (withRtr_rtr _).symm⟩
    | rtr r b _ ih =>
      obtain ⟨x, b', hx, rfl⟩ | ⟨y, b', hy, rfl⟩ := ih
      · exact .inl ⟨x, b, hx, withRtr_withRtr _ _ _⟩
      · exact .inr ⟨y, b, hy, withRtr_withRtr _ _ _⟩
  · rintro (⟨x, b, hx, rfl⟩ | ⟨y, b, hy, rfl⟩)
    · exact .rtr _ b (.std x hx)
    · exact .rtr _ b (.ext y hy)

/-- Encoder-produced values are decodable (rule R145). -/
theorem EncoderProduced.high_zero (h : EncoderProduced c r) : bits r.id 31 29 = 0 := by
  rw [bits_31_29_eq_zero_iff]
  obtain ⟨x, b, hx, rfl⟩ | ⟨y, b, hy, rfl⟩ := encoderProduced_iff.mp h
  · exact newStd_id_le hx
  · rw [withRtr_id, newExt_id]
    exact hy

end Encode

/-! ### Which bits are carried over -/

/-- A field of a word is made of the field's own bits. -/
theorem bits_congr {v w : Word} {hi lo : Nat}
    (h : ∀ k < hi - lo + 1, v.getLsbD (k + lo) = w.getLsbD (k + lo)) :
    bits v hi lo = bits w hi lo := by
  apply Nat.eq_of_testBit_eq
  intro k
  simp only [bits, Nat.testBit_mod_two_pow, Nat.testBit_div_two_pow]
  by_cases hk : k < hi - lo + 1
  · exact congrArg (decide (k < hi - lo + 1) && ·) (h k hk)
  · simp only [hk, decide_false, Bool.false_and]

/-- A field that has no RTR bit in it is carried over by an RTR write (rule R136). -/
theorem bits_withRtr_code (r : IdReg) (b : Bool) {hi lo : Nat}
    (h : ∀ k < hi - lo + 1, k + lo ≠ rtrShift) :
    bits (withRtr r b).code hi lo = bits r.code hi lo :=
  bits_congr fun k hk => withRtr_code_getLsbD b (h k hk)

/-- The extended encoder sets no code bit but IDE and SRR (rule R136). -/
theorem newExt_code_getLsbD (c : Bool) (y : Word) {k : Nat} (h21 : k ≠ ideShift)
    (h22 : k ≠ srrShift) : (newExt c y).code.getLsbD k = false := by
  have hcode : ∀ c : Bool, ∀ k < 32, k ≠ ideShift → k ≠ srrShift →
      (if c then 0x00600000#32 else 0x00200000#32).getLsbD k = false := by decide
  rw [newExt_eq]
  rcases Nat.lt_or_ge k 32 with hk | hk
  · exact hcode c k hk h21 h22
  · exact BitVec.getLsbD_of_ge _ _ hk

/-! ### The statements -/

/-- Settles O46: no RTR write reaches what the decoder reads, by induction on the writes, and the
decoder inverts each encoder. -/
theorem roundTripThroughRtrWrites : Obligations.RoundTripThroughRtrWrites := by
  constructor
  · intro x bs hx
    rw [toId_foldl_withRtr, toId_newStd hx]
  · intro c y bs hy
    rw [toId_foldl_withRtr, toId_newExt c hy]

/-- Settles O44: both are the id word divided by 2^18. -/
theorem baseIdPositionsLineUp : Obligations.BaseIdPositionsLineUp := by
  refine ⟨fun x hx => newStd_id_div hx, fun c y _ => ?_⟩
  rw [newExt_id, toNat_baseId]

/-- Settles O45: the range check is that of id[31:29], and the identifier bits hold id[31:29]. -/
theorem decodeReadsOnlyIdentifier : Obligations.DecodeReadsOnlyIdentifier :=
  ⟨fun _ => ⟨toId_eq_none_iff, fun _ => ok_of_toId⟩, fun _ _ => toId_congr⟩

/-- Settles O47: an encoder-produced value is an encoding with one RTR write. -/
theorem encoderProducedForms : Obligations.EncoderProducedForms := by
  intro c r
  simp only [encoderProduced_iff, withRtr_newStd, withRtr_newExt]

/-- Settles O48: encoder-produced values are decodable, and decodable values do not fault. -/
theorem encoderProducedNeverFault : Obligations.EncoderProducedNeverFault := by
  intro c s d a b x y hd ha hb hx hy
  constructor
  · rw [exec_idregToId hd ha, decodeReg_of_high_zero none hx.high_zero]
    exact ⟨_, rfl⟩
  · rw [exec_idregCmp hd ha hb, cmpReg_of_high_zero hx.high_zero hy.high_zero]
    exact ⟨_, rfl⟩

/-- Settles O49: of the encoders' code bits only IDE and SRR are ever set, and RTR stands in none of
the other fields. -/
theorem bitRouting : Obligations.BitRouting := by
  constructor
  · intro c x y k
    exact ⟨BitVec.getLsbD_zero, newExt_code_getLsbD c y⟩
  · intro r b
    exact ⟨withRtr_code_getLsbD b (by decide), ide_withRtr r b, bits_withRtr_code r b (by decide),
      bits_withRtr_code r b (by decide), bits_withRtr_code r b (by decide), withRtr_id r b⟩

end Sys2Proof.Machine
end

section
/-! PROOFS. The laws of the order (43_arbitration.md): comparisons of numbers put together, the
priority key, and from it the order's laws; and the bits of a frame as sent. -/

namespace Sys2Proof.Machine

/-! ### Comparisons of numbers -/

section Numbers

variable {p q r s : Nat} {o : ArbOrder}

theorem thenCmp_assoc (c t u : ArbOrder) : thenCmp (thenCmp c t) u = thenCmp c (thenCmp t u) := by
  cases c <;> rfl

theorem thenCmp_eq_equal {c t : ArbOrder} : thenCmp c t = .equal ↔ c = .equal ∧ t = .equal := by
  cases c <;> simp

/-- The comparison depends on the order of the numbers alone. -/
theorem invCmp_congr (hlt : p < q ↔ r < s) (hgt : q < p ↔ s < r) : invCmp p q = invCmp r s := by
  have heq : p = q ↔ r = s := by omega
  simp only [invCmp, hlt, heq]

/-- Comparing one part and then the next is comparing the numbers with these digits. -/
theorem thenCmp_invCmp_invCmp {n : Nat} (hr : r < n) (hs : s < n) :
    thenCmp (invCmp p q) (invCmp r s) = invCmp (p * n + r) (q * n + s) := by
  have hdigit : ∀ {p q r : Nat} (s : Nat), r < n → p < q → p * n + r < q * n + s := by
    intro p q r s hr hpq
    calc p * n + r < (p + 1) * n := by rw [Nat.succ_mul]; omega
      _ ≤ q * n := Nat.mul_le_mul_right n hpq
      _ ≤ q * n + s := Nat.le_add_right _ s
  rcases Nat.lt_trichotomy p q with hlt | rfl | hgt
  · rw [invCmp_eq_greater.mpr hlt, invCmp_eq_greater.mpr (hdigit s hr hlt), thenCmp_greater]
  · rw [invCmp_eq_equal.mpr rfl, thenCmp_equal]
    exact invCmp_congr (by omega) (by omega)
  · rw [invCmp_eq_less.mpr hgt, invCmp_eq_less.mpr (hdigit r hs hgt), thenCmp_less]

theorem invCmp_swap (p q : Nat) : invCmp q p = (invCmp p q).reverse := by
  rcases Nat.lt_trichotomy p q with hlt | rfl | hgt
  · rw [invCmp_eq_greater.mpr hlt, invCmp_eq_less.mpr hlt, ArbOrder.reverse]
  · rw [invCmp_eq_equal.mpr rfl, ArbOrder.reverse]
  · rw [invCmp_eq_less.mpr hgt, invCmp_eq_greater.mpr hgt, ArbOrder.reverse]

/-- RTR bits compare as numbers do: the data frame's is the smaller. -/
theorem rtrTie_eq_invCmp (ra rb : Bool) : rtrTie ra rb = invCmp ra.toNat rb.toNat := by
  cases ra <;> cases rb <;> rfl

theorem rtrTie_eq_equal {ra rb : Bool} : rtrTie ra rb = .equal ↔ ra = rb := by
  cases ra <;> cases rb <;> decide

/-! The relations read off a comparison (rule R153). -/

theorem isGt_iff : o.isGt = true ↔ o = .greater := by cases o <;> decide
theorem isLt_iff : o.isLt = true ↔ o = .less := by cases o <;> decide
theorem isGe_iff : o.isGe = true ↔ o ≠ .less := by cases o <;> decide
theorem isLe_iff : o.isLe = true ↔ o ≠ .greater := by cases o <;> decide

theorem isLt_invCmp : (invCmp p q).isLt = true ↔ q < p := isLt_iff.trans invCmp_eq_less

theorem isGe_invCmp : (invCmp p q).isGe = true ↔ p ≤ q := by
  rw [isGe_iff, Ne, invCmp_eq_less, Nat.not_lt]

theorem isLe_invCmp : (invCmp p q).isLe = true ↔ q ≤ p := by
  rw [isLe_iff, Ne, invCmp_eq_greater, Nat.not_lt]

end Numbers

/-! ### The priority key -/

section Key

variable {a b : IdReg}

/-- The parts of the key of a standard value: its 11-bit id and RTR. -/
theorem priorityKey_of_std (h : ide a = false) :
    priorityKey a = a.id.toNat / 2 ^ 18 * 2 ^ 20 + (rtr a).toNat := by
  simp [priorityKey, h]

/-- The parts of the key of an extended value: its base id, its low 18 bits and RTR. -/
theorem priorityKey_of_ext (h : ide a = true) :
    priorityKey a =
      a.id.toNat / 2 ^ 18 * 2 ^ 20 + 2 ^ 19 + a.id.toNat % 2 ^ 18 * 2 + (rtr a).toNat := by
  simp [priorityKey, h]

/-- The key has 31 bits (rule R155). -/
theorem priorityKey_lt (ha : decodable a = true) : priorityKey a < 2 ^ 31 := by
  have hle : a.id.toNat ≤ extMax := bits_31_29_eq_zero_iff.mp (decodable_iff.mp ha)
  have hrtr := Bool.toNat_lt (rtr a)
  simp only [extMax] at hle
  rcases Bool.eq_false_or_eq_true (ide a) with h | h
  · rw [priorityKey_of_ext h]
    omega
  · rw [priorityKey_of_std h]
    omega

/-- The comparison of decodable values is that of their keys (rule R155). -/
theorem cmpReg_eq_priorityKey (ha : decodable a = true) (hb : decodable b = true) :
    cmpReg a b = .ok (invCmp (priorityKey a) (priorityKey b)) := by
  have hra := Bool.toNat_lt (rtr a)
  have hrb := Bool.toNat_lt (rtr b)
  rw [cmpReg_of_high_zero (decodable_iff.mp ha) (decodable_iff.mp hb), rtrTie_eq_invCmp,
    thenCmp_invCmp_invCmp hra hrb, identifierBits, identifierBits]
  rcases Bool.eq_false_or_eq_true (ide a) with ha | ha <;>
    rcases Bool.eq_false_or_eq_true (ide b) with hb | hb
  · rw [priorityKey_of_ext ha, priorityKey_of_ext hb, ha, hb, if_pos rfl, if_pos rfl, if_pos rfl]
    exact congrArg Except.ok (invCmp_congr (by omega) (by omega))
  · have hext : ArbOrder.less = invCmp 1 0 := rfl
    rw [priorityKey_of_ext ha, priorityKey_of_std hb, ha, hb, if_neg Bool.true_eq_false.mp,
      if_pos rfl, hext, thenCmp_invCmp_invCmp (n := 2) (by omega) (by omega)]
    exact congrArg Except.ok (invCmp_congr (by omega) (by omega))
  · have hstd : ArbOrder.greater = invCmp 0 1 := rfl
    rw [priorityKey_of_std ha, priorityKey_of_ext hb, ha, hb, if_neg Bool.false_ne_true,
      if_neg Bool.false_ne_true, hstd, thenCmp_invCmp_invCmp (n := 2) (by omega) (by omega)]
    exact congrArg Except.ok (invCmp_congr (by omega) (by omega))
  · rw [priorityKey_of_std ha, priorityKey_of_std hb, ha, hb, if_pos rfl,
      if_neg Bool.false_ne_true, if_neg Bool.false_ne_true]
    exact congrArg Except.ok (invCmp_congr (by omega) (by omega))

theorem cmpReg_self (ha : decodable a = true) : cmpReg a a = .ok .equal := by
  rw [cmpReg_eq_priorityKey ha ha, invCmp_eq_equal.mpr rfl]

end Key

/-! ### What the comparison reads -/

section Reads

variable {a b : IdReg}

/-- Different ids do not compare Equal, and equal ones do with equal RTR only. -/
theorem compareIds_eq_equal {i j : CanId} {ra rb : Bool} :
    compareIds i j ra rb = .equal ↔ i = j ∧ ra = rb := by
  cases i <;> cases j <;>
    simp [compareIds, thenCmp_eq_equal, invCmp_eq_equal, rtrTie_eq_equal, BitVec.toNat_inj]

theorem cmpReg_eq_equal (ha : decodable a = true) (hb : decodable b = true) :
    cmpReg a b = .ok .equal ↔ toId a = toId b ∧ rtr a = rtr b := by
  obtain ⟨i, hi⟩ : ∃ i, toId a = some i := ⟨_, toId_of_high_zero (decodable_iff.mp ha)⟩
  obtain ⟨j, hj⟩ : ∃ j, toId b = some j := ⟨_, toId_of_high_zero (decodable_iff.mp hb)⟩
  rw [cmpReg_of_toId hi hj, hi, hj, Except.ok.injEq, Option.some.injEq, compareIds_eq_equal]

/-- Of a decodable operand a the comparison reads what it decodes to and its RTR. -/
theorem cmpReg_congr_left {i : CanId} (ha : toId a = some i) (hb : toId b = some i)
    (hrtr : rtr a = rtr b) (c : IdReg) : cmpReg a c = cmpReg b c := by
  simp only [cmpReg, decodeReg, ha, hb, hrtr]

/-- Of a decodable operand b the comparison reads what it decodes to and its RTR. -/
theorem cmpReg_congr_right {i : CanId} (ha : toId a = some i) (hb : toId b = some i)
    (hrtr : rtr a = rtr b) (c : IdReg) : cmpReg c a = cmpReg c b := by
  simp only [cmpReg, decodeReg, ha, hb, hrtr]

theorem decodable_iff_toId : decodable a = true ↔ ∃ i, toId a = some i := by
  rw [decodable_iff, ← Option.isSome_iff_exists, Option.isSome_iff_ne_none, Ne, toId_eq_none_iff,
    not_not]

theorem eqReg_iff : eqReg a b = true ↔ a = b := by
  cases a
  cases b
  rw [eqReg_eq_decide, decide_eq_true_iff, IdReg.mk.injEq]

/-- A standard and an extended encoding decode to Ids of different tags. -/
theorem toId_newStd_ne_newExt {x : Half} {y : Word} (hx : x.toNat ≤ stdMax) (c : Bool)
    (hy : y.toNat ≤ extMax) : toId (newStd x) ≠ toId (newExt c y) := by
  rw [toId_newStd hx, toId_newExt c hy]
  simp

/-- What an encoder-produced value decodes to and its RTR tell the value. -/
theorem encoderProduced_ext {c : Bool} (ha : EncoderProduced c a) (hb : EncoderProduced c b)
    (hid : toId a = toId b) (hrtr : rtr a = rtr b) : a = b := by
  obtain ⟨x, p, hx, rfl⟩ | ⟨x, p, hx, rfl⟩ := encoderProduced_iff.mp ha <;>
    obtain ⟨y, q, hy, rfl⟩ | ⟨y, q, hy, rfl⟩ := encoderProduced_iff.mp hb <;>
    rw [toId_withRtr, toId_withRtr] at hid <;>
    rw [rtr_withRtr, rtr_withRtr] at hrtr <;>
    subst hrtr
  · rw [toId_newStd hx, toId_newStd hy, Option.some.injEq, CanId.standard.injEq] at hid
    have hxy : x = y := by
      apply BitVec.eq_of_toNat_eq
      simpa only [BitVec.toNat_setWidth_of_le (show 16 ≤ 32 by decide)] using
        congrArg BitVec.toNat hid
    rw [hxy]
  · exact absurd hid (toId_newStd_ne_newExt hx c hy)
  · exact absurd hid.symm (toId_newStd_ne_newExt hy c hx)
  · rw [toId_newExt c hx, toId_newExt c hy, Option.some.injEq, CanId.extended.injEq] at hid
    rw [hid]

end Reads

/-! ### The bits as sent -/

section Wire

/-- One bit more of each is compared before the rest. -/
theorem wireCmp_cons (p q : Bool) (ps qs : List Bool) :
    wireCmp (p :: ps) (q :: qs) = thenCmp (invCmp p.toNat q.toNat) (wireCmp ps qs) := by
  cases p <;> cases q <;> rfl

/-- Two numbers of as many bits, sent first, are compared as numbers before the rest. -/
theorem wireCmp_msbFirst (v w n : Nat) (ps qs : List Bool) :
    wireCmp (msbFirst v n ++ ps) (msbFirst w n ++ qs) =
      thenCmp (invCmp (v % 2 ^ n) (w % 2 ^ n)) (wireCmp ps qs) := by
  induction n with
  | zero => simp [msbFirst, Nat.mod_one, invCmp_eq_equal.mpr]
  | succ n ih =>
    have hv := Nat.mod_lt v (Nat.two_pow_pos n)
    have hw := Nat.mod_lt w (Nat.two_pow_pos n)
    rw [msbFirst, msbFirst, List.cons_append, List.cons_append, wireCmp_cons, ih, ← thenCmp_assoc,
      thenCmp_invCmp_invCmp hv hw, Nat.toNat_testBit, Nat.toNat_testBit, Nat.mod_pow_succ,
      Nat.mod_pow_succ]
    simp only [Nat.mul_comm (2 ^ n), Nat.add_comm]

/-- The base id and the low 18 bits are the whole extended identifier. -/
theorem thenCmp_baseId_low (x y : Word) :
    thenCmp (invCmp (baseId x).toNat (baseId y).toNat)
      (invCmp (x.toNat % 2 ^ 18) (y.toNat % 2 ^ 18)) = invCmp x.toNat y.toNat := by
  rw [toNat_baseId, toNat_baseId,
    thenCmp_invCmp_invCmp (Nat.mod_lt _ (by decide)) (Nat.mod_lt _ (by decide)),
    Nat.div_add_mod', Nat.div_add_mod']

theorem toNat_mod_of_std_ok {x : Word} (hx : (CanId.standard x).ok = true) :
    x.toNat % 2 ^ 11 = x.toNat := by
  have hle : x.toNat ≤ stdMax := of_decide_eq_true hx
  exact Nat.mod_eq_of_lt (Nat.lt_succ_of_le hle)

theorem toNat_baseId_mod_of_ext_ok {y : Word} (hy : (CanId.extended y).ok = true) :
    (baseId y).toNat % 2 ^ 11 = (baseId y).toNat := by
  have hle : y.toNat ≤ extMax := of_decide_eq_true hy
  simp only [extMax] at hle
  rw [toNat_baseId]
  omega

/-- After equal 11-bit ids a standard frame wins: an extended one sends SRR and IDE recessive. -/
theorem wireCmp_std_ext (p : Bool) (qs : List Bool) :
    wireCmp [p, false] (true :: true :: qs) = .greater := by
  cases p <;> rfl

/-- The same with the extended frame on the left. -/
theorem wireCmp_ext_std (q : Bool) (ps : List Bool) :
    wireCmp (true :: true :: ps) [q, false] = .less := by
  cases q <;> rfl

/-- Settles O57: a run of bits compares as the number it sends, and frames of two types with equal
base ids first differ where the extended one sends SRR or IDE. -/
theorem wireReadingAgrees : Obligations.WireReadingAgrees := by
  intro i j p q hi hj
  cases i with
  | standard x =>
    have hx := toNat_mod_of_std_ok hi
    cases j with
    | standard y =>
      have hy := toNat_mod_of_std_ok hj
      have htail : wireCmp [p, false] [q, false] = rtrTie p q := by cases p <;> cases q <;> rfl
      rw [wireBits, wireBits, wireCmp_msbFirst, hx, hy, htail, compareIds]
    | extended y =>
      have hy := toNat_baseId_mod_of_ext_ok hj
      rw [wireBits, wireBits, List.append_assoc, List.append_assoc, wireCmp_msbFirst, hx, hy,
        List.cons_append, List.cons_append, wireCmp_std_ext, compareIds]
  | extended x =>
    have hx := toNat_baseId_mod_of_ext_ok hi
    cases j with
    | standard y =>
      have hy := toNat_mod_of_std_ok hj
      rw [wireBits, wireBits, List.append_assoc, List.append_assoc, wireCmp_msbFirst, hx, hy,
        List.cons_append, List.cons_append, wireCmp_ext_std, compareIds]
    | extended y =>
      have hy := toNat_baseId_mod_of_ext_ok hj
      have htail : wireCmp [p] [q] = rtrTie p q := by cases p <;> cases q <;> rfl
      have hflags : ∀ ps qs, wireCmp ([true, true] ++ ps) ([true, true] ++ qs) = wireCmp ps qs :=
        fun _ _ => rfl
      simp only [wireBits, List.append_assoc, wireCmp_msbFirst, hx, hy, hflags, htail]
      rw [← thenCmp_assoc, thenCmp_baseId_low, compareIds]

end Wire

/-! ### The statements -/

/-- Settles O50: the key holds what the comparison reads, in the order in which it decides. -/
theorem cmpFollowsPriorityKey : Obligations.CmpFollowsPriorityKey :=
  fun _ _ ha hb => ⟨priorityKey_lt ha, cmpReg_eq_priorityKey ha hb⟩

/-- Settles O51: the keys are numbers, whose order is total and transitive. -/
theorem cmpIsTotalPreorder : Obligations.CmpIsTotalPreorder := by
  refine ⟨fun a b ha hb => ⟨?_, cmpReg_self ha⟩, fun a b c ha hb hc => ?_⟩
  · rw [cmpReg_eq_priorityKey ha hb, cmpReg_eq_priorityKey hb ha, invCmp_swap]
    rfl
  · refine ⟨_, _, _, cmpReg_eq_priorityKey ha hb, cmpReg_eq_priorityKey hb hc,
      cmpReg_eq_priorityKey ha hc, ?_, ?_⟩
    · simp only [isLe_invCmp]
      omega
    · simp only [isLt_invCmp, isLe_invCmp]
      omega

/-- Settles O52: values that agree in IDE and the identifier bits decode alike, and the comparison
reads no more than that and RTR. -/
theorem cmpReadsOnlyIdentifierAndFlags : Obligations.CmpReadsOnlyIdentifierAndFlags := by
  intro a b c ha hide hrtr hid
  obtain ⟨i, hi⟩ := decodable_iff_toId.mp ha
  have hj : toId b = some i := (toId_congr hide hid).symm.trans hi
  have hb : decodable b = true := decodable_iff_toId.mpr ⟨i, hj⟩
  exact ⟨(cmpReg_eq_equal ha hb).mpr ⟨hi.trans hj.symm, hrtr⟩, cmpReg_congr_left hi hj hrtr c,
    cmpReg_congr_right hi hj hrtr c⟩

/-- Settles O53: Equal says that the ids and RTR are equal, and an encoder-produced value has
nothing else in it. -/
theorem eqAgreesWithCmp : Obligations.EqAgreesWithCmp := by
  refine ⟨fun a b ha hb heq => ?_, fun c a b ha hb => ?_, by decide, by decide⟩
  · obtain rfl := eqReg_iff.mp heq
    exact cmpReg_self ha
  · have hda : decodable a = true := decodable_iff.mpr ha.high_zero
    have hdb : decodable b = true := decodable_iff.mpr hb.high_zero
    have hiff : cmpReg a b = .ok .equal ↔ a = b := by
      rw [cmpReg_eq_equal hda hdb]
      constructor
      · rintro ⟨hid, hrtr⟩
        exact encoderProduced_ext ha hb hid hrtr
      · rintro rfl
        exact ⟨rfl, rfl⟩
    exact ⟨hiff, hiff.trans eqReg_iff.symm⟩

/-- Settles O56: the maximum is the value with the smallest key. -/
theorem hostRelationsAndMaximum : Obligations.HostRelationsAndMaximum := by
  refine ⟨fun o => ⟨isGt_iff, isLt_iff, isGe_iff, isLe_iff⟩, ?_, ?_⟩
  · intro a b ha hb hide hlt
    rw [cmpReg_of_high_zero (decodable_iff.mp ha) (decodable_iff.mp hb), if_pos hide,
      invCmp_eq_greater.mpr hlt, thenCmp_greater]
    exact ⟨_, rfl, rfl⟩
  · intro pending hne hdec
    have hsome : pending.argmin priorityKey ≠ none := mt List.argmin_eq_none.mp hne
    obtain ⟨m, hm⟩ := Option.ne_none_iff_exists'.mp hsome
    have hmem : m ∈ pending := List.argmin_mem hm
    refine ⟨m, hmem, fun r hr => ⟨_, cmpReg_eq_priorityKey (hdec m hmem) (hdec r hr), ?_⟩⟩
    exact isGe_invCmp.mpr (List.le_of_mem_argmin hr hm)

end Sys2Proof.Machine
end

section
/-! PROOFS. The requests of a host program (10_state.md): what completing one changes, what every
instruction can do, and that a step presents the next line to the block. -/

namespace Sys2Proof.Machine

/-! ### The results of operations -/

section Results

variable {c : Config} {op : Op} {vs : List Value} {v : Value} {f : FaultInfo}

theorem ofResult_eq_ok {r : Except FaultInfo Value} : Response.ofResult r = .ok v ↔ r = .ok v := by
  cases r <;> simp [Response.ofResult]

theorem except_map_eq_ok {ε α β : Type} {g : α → β} {r : Except ε α} {b : β} :
    r.map g = .ok b ↔ ∃ a, r = .ok a ∧ g a = b := by
  cases r <;> simp [Except.map]

theorem run1_eq_ok {α : Type} {slot : Value → Option α} {run : α → Except FaultInfo Value}
    (h : run1 slot run vs = .ok v) : ∃ w x, slot w = some x ∧ run x = .ok v := by
  match vs with
  | [] | _ :: _ :: _ => simp [run1] at h
  | [w] =>
    cases hx : slot w with
    | none => simp [run1, hx] at h
    | some x => exact ⟨w, x, hx, by simpa [run1, hx, ofResult_eq_ok] using h⟩

theorem run2_eq_ok {α β : Type} {slotA : Value → Option α} {slotB : Value → Option β}
    {run : α → β → Except FaultInfo Value} (h : run2 slotA slotB run vs = .ok v) :
    ∃ x y, run x y = .ok v := by
  match vs with
  | [] | [_] | _ :: _ :: _ :: _ => simp [run2] at h
  | [w, u] =>
    cases hx : slotA w <;> cases hy : slotB u <;> simp [run2, hx, hy, ofResult_eq_ok] at h
    exact ⟨_, _, h⟩

theorem ok_stdNew (x : Half) : (Value.optStd (stdNew x)).ok = true := by
  unfold stdNew
  split
  · exact decide_eq_true ‹_›
  · rfl

theorem ok_extNew (x : Word) : (Value.optExt (extNew x)).ok = true := by
  unfold extNew
  split
  · exact decide_eq_true ‹_›
  · rfl

theorem stdNewUnchecked_eq_ok {x y : Half} (h : stdNewUnchecked x = .ok y) :
    y.toNat ≤ stdMax := by
  unfold stdNewUnchecked at h
  split at h <;> cases h
  assumption

theorem extNewUnchecked_eq_ok {x y : Word} (h : extNewUnchecked x = .ok y) :
    y.toNat ≤ extMax := by
  unfold extNewUnchecked at h
  split at h <;> cases h
  assumption

theorem baseId_le {x : Word} (hx : x.toNat ≤ extMax) : (baseId x).toNat ≤ stdMax := by
  rw [toNat_baseId, ← bits_28_18 hx]
  exact bits_28_18_le x

theorem ok_idFromStd {x : Half} (hx : x.toNat ≤ stdMax) : (idFromStd x).ok = true := by
  have hval : (x.setWidth 32).toNat = x.toNat := toNat_val_idFromStd x
  exact decide_eq_true (hval.trans_le hx)

theorem decodeReg_eq_ok {o : Option Slot} {r : IdReg} {i : CanId} (h : decodeReg o r = .ok i) :
    toId r = some i := by
  unfold decodeReg at h
  split at h <;> cases h
  assumption

/-- A result has the type of its operation's row and meets that type's invariant. -/
theorem runOp_eq_ok (h : runOp c op vs = .ok v) : v.type = op.resultType ∧ v.ok = true := by
  cases op with
  | idDefault =>
    cases vs <;> cases h
    exact ⟨rfl, rfl⟩
  | stdNew =>
    obtain ⟨_, x, -, hv⟩ := run1_eq_ok h
    cases hv
    exact ⟨rfl, ok_stdNew x⟩
  | extNew =>
    obtain ⟨_, x, -, hv⟩ := run1_eq_ok h
    cases hv
    exact ⟨rfl, ok_extNew x⟩
  | stdNewUnchecked =>
    obtain ⟨_, x, -, hv⟩ := run1_eq_ok h
    obtain ⟨y, hy, rfl⟩ := except_map_eq_ok.mp hv
    exact ⟨rfl, decide_eq_true (stdNewUnchecked_eq_ok hy)⟩
  | extNewUnchecked =>
    obtain ⟨_, x, -, hv⟩ := run1_eq_ok h
    obtain ⟨y, hy, rfl⟩ := except_map_eq_ok.mp hv
    exact ⟨rfl, decide_eq_true (extNewUnchecked_eq_ok hy)⟩
  | extStandardId =>
    obtain ⟨_, x, hx, hv⟩ := run1_eq_ok h
    cases hv
    exact ⟨rfl, decide_eq_true (baseId_le (asExtId_eq_some.mp hx).2)⟩
  | idFromStd =>
    obtain ⟨_, x, hx, hv⟩ := run1_eq_ok h
    cases hv
    exact ⟨rfl, ok_idFromStd (asStdId_eq_some.mp hx).2⟩
  | idFromExt =>
    obtain ⟨_, x, hx, hv⟩ := run1_eq_ok h
    cases hv
    exact ⟨rfl, decide_eq_true (asExtId_eq_some.mp hx).2⟩
  | idregToId =>
    obtain ⟨_, r, -, hv⟩ := run1_eq_ok h
    obtain ⟨i, hi, rfl⟩ := except_map_eq_ok.mp hv
    exact ⟨rfl, ok_of_toId (decodeReg_eq_ok hi)⟩
  | idregCmp =>
    obtain ⟨_, _, hv⟩ := run2_eq_ok h
    obtain ⟨o, -, rfl⟩ := except_map_eq_ok.mp hv
    exact ⟨rfl, rfl⟩
  | idregWithRtr | idregEq =>
    obtain ⟨_, _, hv⟩ := run2_eq_ok h
    cases hv
    exact ⟨rfl, rfl⟩
  | stdAsRaw | extAsRaw | idAsRaw | idregNewStd | idregNewExt
  | idregIsExt | idregIsStd | idregRtr =>
    obtain ⟨_, _, -, hv⟩ := run1_eq_ok h
    cases hv
    exact ⟨rfl, rfl⟩

/-- A cause of a fault gives the record a value that was out of range (rule R171). -/
theorem FaultCause.faultInfoOk (h : FaultCause op vs f) : faultInfoOk f = true := by
  cases h with
  | stdRange x hgt => exact decide_eq_true hgt
  | extRange x hgt => exact decide_eq_true hgt
  | toId r hne => simp [Machine.faultInfoOk, decodable, hne]
  | cmpLeft x y hne => simp [Machine.faultInfoOk, decodable, hne]
  | cmpRight x y _ hne => simp [Machine.faultInfoOk, decodable, hne]

end Results

/-! ### What an instruction can do -/

section Exec

variable {s t : State} {i : Instr} {v : Value}

/-- Everything an instruction can do when it answers a next state: its result name was unbound, and
either it completes with a result of its row's type that meets its invariant, or it records a fault
of rule R171. -/
theorem exec_next (h : exec i s = .next t) : s.read i.dst = none ∧
    ((∃ v, v.type = i.op.resultType ∧ v.ok = true ∧ t = s.complete i.dst v) ∨
      (∃ f, faultInfoOk f = true ∧ t = s.raise f)) := by
  have hd := (exec_next_answer h).1
  refine ⟨hd, ?_⟩
  rw [exec_eq_presentValues i s hd] at h
  cases hvs : s.resolveAll i.operands with
  | error r =>
    rw [hvs] at h
    cases h
  | ok vs =>
    rw [hvs, State.presentValues] at h
    cases hr : runOp s.config i.op vs with
    | ok v =>
      rw [hr] at h
      obtain ⟨htype, hok⟩ := runOp_eq_ok hr
      exact .inl ⟨v, htype, hok, (Host.Outcome.next.inj h).symm⟩
    | fault f =>
      rw [hr] at h
      exact .inr ⟨f, (faultCause_of_runOp hr).faultInfoOk, (Host.Outcome.next.inj h).symm⟩
    | refused q =>
      rw [hr] at h
      cases q <;> cases h

theorem State.request0_of_bound {d : Nat} {r : Except FaultInfo Value} (hd : s.read d = some v) :
    s.request0 d r = .refused (.nameAlreadyBound d) := by
  simp [State.request0, hd]

theorem State.request1_of_bound {α : Type} {d : Nat} {a : Operand} {slot : Value → Option α}
    {run : α → Except FaultInfo Value} (hd : s.read d = some v) :
    s.request1 d a slot run = .refused (.nameAlreadyBound d) := by
  simp [State.request1, hd]

theorem State.request2_of_bound {α β : Type} {d : Nat} {a b : Operand} {slotA : Value → Option α}
    {slotB : Value → Option β} {run : α → β → Except FaultInfo Value} (hd : s.read d = some v) :
    s.request2 d a b slotA slotB run = .refused (.nameAlreadyBound d) := by
  simp [State.request2, hd]

/-- A bound result name refuses any instruction (log 5). -/
theorem exec_of_bound (hd : s.read i.dst = some v) :
    exec i s = .refused (.nameAlreadyBound i.dst) := by
  cases i with
  | idDefault => exact State.request0_of_bound hd
  | idregWithRtr | idregCmp | idregEq => exact State.request2_of_bound hd
  | _ => exact State.request1_of_bound hd

end Exec

/-! ### Resolving operands -/

section Resolve

variable {s : State} {o : Operand} {os : List Operand} {v : Value} {vs : List Value} {r : Refusal}

theorem State.resolveAll_cons_eq_ok : s.resolveAll (o :: os) = .ok vs ↔
    ∃ v ws, s.resolve o = .ok v ∧ s.resolveAll os = .ok ws ∧ vs = v :: ws := by
  cases ho : s.resolve o <;> cases hos : s.resolveAll os <;>
    simp [State.resolveAll, ho, hos, eq_comm]

/-- The first operand that presents no value refuses the line. -/
theorem State.resolveAll_append_of_refused {pre post : List Operand}
    (hpre : s.resolveAll pre = .ok vs) (ho : s.resolve o = .error r) :
    s.resolveAll (pre ++ o :: post) = .error r := by
  induction pre generalizing vs with
  | nil => simp [State.resolveAll, ho]
  | cons p pre ih =>
    obtain ⟨w, ws, hp, hws, -⟩ := State.resolveAll_cons_eq_ok.mp hpre
    simp [State.resolveAll, hp, ih hws]

/-- An unwrap presents a StdId or an ExtId (rule R74). -/
theorem unwrapValue_eq_ok {n : Nat} {w : Value} (h : unwrapValue n w = .ok v) :
    v.type = .stdId ∨ v.type = .extId := by
  unfold unwrapValue at h
  split at h <;> cases h
  · exact .inl rfl
  · exact .inr rfl

/-- An operand fits a slot of the type of what it presents. -/
theorem State.fits_of_resolve (h : s.resolve o = .ok v) (hok : v.ok = true) :
    o.fits v.type = true := by
  cases o with
  | lit w =>
    cases h
    simp [Operand.fits, hok]
  | name n => rfl
  | unwrap n =>
    cases hn : s.read n with
    | none => simp [State.resolve, hn] at h
    | some w =>
      simp only [State.resolve, hn] at h
      simpa [Operand.fits] using unwrapValue_eq_ok h

/-- Operands whose values the block accepts fit the slots of the row. -/
theorem State.slotsFit_of_accepted {ts : List ValueType} (hvs : s.resolveAll os = .ok vs)
    (h : slotsAccepted ts vs = true) : slotsFit ts os = true := by
  induction os generalizing ts vs with
  | nil =>
    cases hvs
    cases ts with
    | nil => rfl
    | cons t ts => cases h
  | cons o os ih =>
    obtain ⟨v, ws, ho, hos, rfl⟩ := State.resolveAll_cons_eq_ok.mp hvs
    cases ts with
    | nil => cases h
    | cons t ts =>
      simp only [slotsAccepted, Bool.and_eq_true, beq_iff_eq] at h
      obtain ⟨⟨rfl, hok⟩, hws⟩ := h
      simp only [slotsFit, State.fits_of_resolve ho hok, ih hos hws, Bool.and_true]

end Resolve

/-! ### Presenting a line -/

/-- The block's reason for refusing a line that does not decode (rules R69 and R70). -/
def decodeReason : DecodeError → RefusedReason
  | .reservedOp => .reservedOp
  | .operandType => .operandType

section Present

variable {s : State} {f : Frame} {e : DecodeError} {v : Value} {vs : List Value}

theorem decode_eq_reservedOp (h : decode f = .error .reservedOp) :
    Op.ofSelect f.select = none := by
  cases hop : Op.ofSelect f.select with
  | none => rfl
  | some op =>
    simp only [decode, hop] at h
    split at h
    · cases h
    · split at h <;> cases h

/-- The block refuses a line that does not decode, for the decoder's reason: a value the block
accepts comes from an operand that the decoder accepts. -/
theorem State.respond_of_undecoded (c : Config) (he : decode f = .error e)
    (hvs : s.resolveAll f.slots = .ok vs) :
    respond c f.select vs = .refused (decodeReason e) := by
  cases e with
  | reservedOp => exact respond_of_reserved (decode_eq_reservedOp he)
  | operandType =>
    obtain ⟨op, hop, hfit⟩ := decode_eq_operandType he
    have haccepted : slotsAccepted op.slotTypes vs = false := by
      refine Bool.eq_false_of_not_eq_true fun h => ?_
      rw [State.slotsFit_of_accepted hvs h] at hfit
      cases hfit
    exact (respond_eq_refused hop).mpr ⟨rfl, haccepted⟩

theorem State.present_of_bound (hd : s.read f.dst = some v) :
    s.present f = .refused (.nameAlreadyBound f.dst) := by
  simp [State.present, hd]

theorem State.present_of_unbound (hd : s.read f.dst = none) :
    s.present f =
      s.presentValues f.dst (respond s.config f.select) (s.resolveAll f.slots) := by
  simp only [State.present, hd]
  cases s.resolveAll f.slots with
  | error r => rfl
  | ok vs =>
    simp only [State.presentValues]
    cases respond s.config f.select vs with
    | ok v => rfl
    | fault info => rfl
    | refused q => cases q <;> rfl

/-- Everything presenting a line can do. -/
theorem State.present_cases (s : State) (f : Frame) :
    (∃ v, s.present f = .next (s.complete f.dst v)) ∨
    (∃ info, s.present f = .next (s.raise info)) ∨ (∃ r, s.present f = .refused r) := by
  cases hd : s.read f.dst with
  | some v => exact .inr (.inr ⟨_, State.present_of_bound hd⟩)
  | none =>
    rw [State.present_of_unbound hd]
    cases s.resolveAll f.slots with
    | error r => exact .inr (.inr ⟨r, rfl⟩)
    | ok vs =>
      rw [State.presentValues]
      cases respond s.config f.select vs with
      | ok v => exact .inl ⟨v, rfl⟩
      | fault info => exact .inr (.inl ⟨info, rfl⟩)
      | refused q => cases q <;> exact .inr (.inr ⟨_, rfl⟩)

/-- An instruction's meaning is the host presenting its line to the block. -/
theorem exec_eq_present (i : Instr) (s : State) : exec i s = s.present (encode i) := by
  cases hd : s.read i.dst with
  | some v => rw [exec_of_bound hd, State.present_of_bound (f := encode i) hd, encode]
  | none =>
    have hblock : respond s.config i.op.select = runOp s.config i.op :=
      funext fun _ => respond_select
    rw [exec_eq_presentValues i s hd, State.present_of_unbound (f := encode i) hd, encode, hblock]

theorem State.present_of_undecoded (he : decode f = .error e) :
    s.present f = .refused (s.lineRefusal f e) := by
  cases hd : s.read f.dst with
  | some v => simp [State.present_of_bound hd, State.lineRefusal, hd]
  | none =>
    cases hvs : s.resolveAll f.slots with
    | error r => simp [State.present_of_unbound hd, State.lineRefusal, State.presentValues, hd, hvs]
    | ok vs =>
      rw [State.present_of_unbound hd, State.lineRefusal_of_resolved hd hvs, hvs,
        State.presentValues, State.respond_of_undecoded s.config he hvs]
      cases e <;> rfl

/-- The host refuses a line whose operand has no value. -/
theorem State.present_of_operand_refused {pre post : List Operand} {o : Operand} {r : Refusal}
    (hd : s.read f.dst = none) (hslots : f.slots = pre ++ o :: post)
    (hpre : s.resolveAll pre = .ok vs) (ho : s.resolve o = .error r) :
    s.present f = .refused r := by
  rw [State.present_of_unbound hd, hslots, State.resolveAll_append_of_refused hpre ho,
    State.presentValues]

end Present

/-! ### The next request of the program at the port -/

section Next

variable {s t : State} {f : Frame} {i : Instr}

theorem State.presentNext_of_decoded (hr : s.faultRecord = none) (hf : s.fetch = some f)
    (hi : decode f = .ok i) : s.presentNext = exec i s := by
  simp [State.presentNext, hr, hf, hi]

theorem State.presentNext_of_record {r : FaultRecord} (hr : s.faultRecord = some r) :
    s.presentNext = .fault (.programFaulted r) := by
  simp [State.presentNext, hr]

theorem State.presentNext_of_end (hr : s.faultRecord = none) (hf : s.fetch = none) :
    s.presentNext = .next s := by
  simp [State.presentNext, hr, hf]

/-- The next line is presented to the block, whether it decodes or not. -/
theorem State.presentNext_eq_present (hr : s.faultRecord = none) (hf : s.fetch = some f) :
    s.presentNext = s.present f := by
  cases he : decode f with
  | ok i =>
    obtain ⟨-, rfl⟩ := decode_eq_ok.mp he
    rw [State.presentNext_of_decoded hr hf he, exec_eq_present]
  | error e => rw [State.presentNext_of_undecoded hr hf he, State.present_of_undecoded he]

theorem step_eq_present (hr : s.faultRecord = none) (hf : s.fetch = some f) :
    step s = s.turnOver (s.present f) := by
  rw [step, State.presentNext_eq_present hr hf]

/-- Everything presenting the next request can do when it answers a next state: nothing, at the end
of the list, or an instruction of a program without a record. -/
theorem State.presentNext_next (h : s.presentNext = .next t) :
    t = s ∨ (s.faultRecord = none ∧ ∃ f i, s.fetch = some f ∧ exec i s = .next t) := by
  cases hr : s.faultRecord with
  | some r =>
    rw [State.presentNext_of_record hr] at h
    cases h
  | none =>
    cases hf : s.fetch with
    | none =>
      rw [State.presentNext_of_end hr hf] at h
      exact .inl (Host.Outcome.next.inj h).symm
    | some f =>
      cases hi : decode f with
      | ok i => exact .inr ⟨rfl, f, i, rfl, by rwa [State.presentNext_of_decoded hr hf hi] at h⟩
      | error e =>
        rw [State.presentNext_of_undecoded hr hf hi] at h
        cases h

/-- A bit-packed request is fetched as the line that it stands for (log 12). -/
theorem State.fetch_withFetchWord (s : State) (nbits w : Nat) :
    (s.withFetchWord nbits w).fetch = some (frameOfWord 0 (w % 2 ^ nbits)) := rfl

theorem decodeTableWord_eq_some {nbits w : Nat} (h : decodeTableWord nbits w = some i) :
    decode (frameOfWord 0 (w % 2 ^ nbits)) = .ok i := by
  unfold decodeTableWord at h
  split at h <;> cases h
  assumption

end Next

/-! ### The statements -/

/-- Settles O10: a line that decodes is the line of its instruction, whose meaning is what the block
does with it; one that does not decode the block refuses for the decoder's reason. -/
theorem stepPresentsLine : Obligations.StepPresentsLine :=
  fun _ _ hr hf => step_eq_present hr hf

/-- Settles O9, from the cases of presenting the next request and of turning over. -/
theorem stepRunsDecodedInstruction : Obligations.StepRunsDecodedInstruction := by
  refine ⟨?_, ?_, fun s o h => State.turnOver_of_turns_nil h,
    fun s t h => State.turnOver_of_turns h,
    fun s r q h => ⟨State.turnOver_of_turns h, State.turnOver_of_turns h⟩⟩
  · intro s f i hr hf hi
    rw [step, State.presentNext_of_decoded hr hf hi]
  · intro s nbits w i hi
    have hf := s.fetch_withFetchWord nbits w
    rw [step, State.presentNext_of_decoded rfl hf (decodeTableWord_eq_some hi)]

/-- Settles O12, from the cases of presenting the next request. -/
theorem stepAfterProgramEnd : Obligations.StepAfterProgramEnd := by
  refine ⟨fun s r hr => ?_, fun s hr hend => ?_⟩
  · rw [step, State.presentNext_of_record hr]
  · rw [step, State.presentNext_of_end hr (List.getElem?_eq_none hend)]

/-- Settles O16: the reset state is a literal with an empty list of names. -/
theorem resetState : Obligations.ResetState :=
  ⟨rfl, rfl, rfl, rfl, rfl, rfl, rfl, fun _ => ⟨rfl, rfl, rfl⟩⟩

/-- Settles O20, from the laws of the state and of bound names. -/
theorem completingBindsOneName : Obligations.CompletingBindsOneName :=
  fun s _ _ => ⟨State.read_complete_self s, fun _ hn => State.read_complete_of_ne s hn,
    rfl, rfl, rfl, rfl, rfl, rfl, rfl⟩

/-- Settles O21: a request completes or records a fault, and neither writes anything else. -/
theorem execChangesOnlyItsName : Obligations.ExecChangesOnlyItsName := by
  intro i s t h
  obtain ⟨hd, ⟨v, htype, hok, rfl⟩ | ⟨f, -, rfl⟩⟩ := exec_next h
  · exact ⟨rfl, rfl, rfl, rfl, rfl, fun n hn => State.read_complete_of_ne s hn, hd,
      .inl ⟨v, State.read_complete_self s, htype, hok, rfl, rfl⟩⟩
  · exact ⟨rfl, rfl, rfl, rfl, rfl, fun _ _ => rfl, hd, .inr ⟨f, rfl, rfl, rfl⟩⟩

/-- Settles O17: reading an unbound name, as it stands or unwrapped, is the host's refusal. -/
theorem namesBoundOnceUnboundRefused : Obligations.NamesBoundOnceUnboundRefused := by
  refine ⟨fun s d v => State.resolve_name (State.read_complete_self s),
    fun i s t n v h hn => read_of_exec_next h hn, ?_⟩
  intro s f n o pre post vs hr hf hd hslots hpre ho hn
  have hrefused : s.resolve o = .error (.unboundName n) := by
    obtain rfl | rfl := ho
    · exact State.resolve_unbound hn
    · simp [State.resolve, hn]
  rw [step_eq_present hr hf, State.present_of_operand_refused hd hslots hpre hrefused]

/-- Settles O18: the host checks the result name before the operands. -/
theorem rebindingRefused : Obligations.RebindingRefused := by
  intro s f v hr hf hd
  rw [step_eq_present hr hf, State.present_of_bound hd]

/-- Settles O19: an absent option of either type is the host's refusal. -/
theorem unwrapPresentsOptionVal : Obligations.UnwrapPresentsOptionVal := by
  refine ⟨fun s n x hn => by simp [State.resolve, hn, unwrapValue],
    fun s n x hn => by simp [State.resolve, hn, unwrapValue], ?_⟩
  intro s f n pre post vs hr hf hd hslots hpre hn
  have hrefused : s.resolve (.unwrap n) = .error (.absentValue n) := by
    obtain hn | hn := hn <;> simp [State.resolve, hn, unwrapValue]
  rw [step_eq_present hr hf, State.present_of_operand_refused hd hslots hpre hrefused]

end Sys2Proof.Machine
end

section
/-! PROOFS. Several agents (20_memory.md rule R55; 60_exceptions.md rules R176 and R183): a request
reads and writes the host program at the port only, so that a step is the program's own step and
then a turn; what follows for records, indices and interleavings. -/

namespace Sys2Proof.Machine

/-! ### The program at the port alone -/

/-- The machine with another host program at the port. -/
def State.withProgram (s : State) (h : AgentState) : State := { s with toAgentState := h }

/-- The machine after the program at the port has advanced as it does alone. -/
def State.advancePort (s : State) : State := s.withProgram (s.toAgentState.advance s.config)

/-- An outcome of the machine with one agent, seen in the machine `s`. -/
def State.outcomeIn (s : State) :
    Host.Outcome State Fault Refusal → Host.Outcome State Fault Refusal
  | .next t => .next (s.withProgram t.toAgentState)
  | .fault r => .fault r
  | .refused r => .refused r

/-- The state that an outcome leaves: the next state, or else the state as it was. -/
def State.leftBy (s : State) : Host.Outcome State Fault Refusal → State
  | .next t => t
  | .fault _ => s
  | .refused _ => s

section Alone

variable {s t : State}

/-- What operands present depends on the bound names only. -/
theorem State.resolveAll_congr (h : s.bindings = t.bindings) (os : List Operand) :
    s.resolveAll os = t.resolveAll os := by
  have hresolve : ∀ o, s.resolve o = t.resolve o := by
    intro o
    cases o <;> simp only [State.resolve, State.read, h]
  induction os with
  | nil => rfl
  | cons o os ih => simp only [State.resolveAll, hresolve, ih]

/-- Presenting a line reads and writes the program at the port only. -/
theorem State.present_alone (s : State) (f : Frame) :
    s.present f = s.outcomeIn ((s.toAgentState.alone s.config).present f) := by
  cases hd : s.read f.dst with
  | some v =>
    have hd' : (s.toAgentState.alone s.config).read f.dst = some v := hd
    rw [State.present_of_bound hd, State.present_of_bound hd', State.outcomeIn]
  | none =>
    have hd' : (s.toAgentState.alone s.config).read f.dst = none := hd
    have hvs : (s.toAgentState.alone s.config).resolveAll f.slots = s.resolveAll f.slots :=
      State.resolveAll_congr (s := s.toAgentState.alone s.config) (t := s) rfl f.slots
    have hconfig : (s.toAgentState.alone s.config).config = s.config := rfl
    rw [State.present_of_unbound hd, State.present_of_unbound hd', hvs, hconfig]
    cases s.resolveAll f.slots with
    | error r => rfl
    | ok vs =>
      simp only [State.presentValues]
      cases respond s.config f.select vs with
      | ok v => rfl
      | fault info => rfl
      | refused q => cases q <;> rfl

theorem State.presentNext_alone (s : State) :
    s.presentNext = s.outcomeIn (s.toAgentState.alone s.config).presentNext := by
  cases hr : s.faultRecord with
  | some r =>
    have hr' : (s.toAgentState.alone s.config).faultRecord = some r := hr
    rw [State.presentNext_of_record hr, State.presentNext_of_record hr', State.outcomeIn]
  | none =>
    have hr' : (s.toAgentState.alone s.config).faultRecord = none := hr
    cases hf : s.fetch with
    | none =>
      have hf' : (s.toAgentState.alone s.config).fetch = none := hf
      rw [State.presentNext_of_end hr hf, State.presentNext_of_end hr' hf']
      rfl
    | some f =>
      have hf' : (s.toAgentState.alone s.config).fetch = some f := hf
      rw [State.presentNext_eq_present hr hf, State.presentNext_eq_present hr' hf',
        State.present_alone]

theorem State.step_alone (h : AgentState) (c : Config) :
    step (h.alone c) = (h.alone c).presentNext :=
  State.turnOver_of_turns_nil rfl

/-- Advancing alone is what presenting the next request leaves. -/
theorem State.advancePort_eq (s : State) : s.advancePort = s.leftBy s.presentNext := by
  rw [State.advancePort, AgentState.advance, State.step_alone, State.presentNext_alone s]
  cases (s.toAgentState.alone s.config).presentNext <;> rfl

theorem State.advancePort_of_next (h : s.presentNext = .next t) : s.advancePort = t := by
  rw [State.advancePort_eq, h, State.leftBy]

/-- Where the program has ended it does not advance. -/
theorem State.advancePort_of_fault {r : Fault} (h : s.presentNext = .fault r) :
    s.advancePort = s := by
  rw [State.advancePort_eq, h, State.leftBy]

/-- Where its line is refused it does not advance. -/
theorem State.advancePort_of_refused {r : Refusal} (h : s.presentNext = .refused r) :
    s.advancePort = s := by
  rw [State.advancePort_eq, h, State.leftBy]

end Alone

/-! ### What a step does -/

section Step

variable {s t : State} {k : Nat} {h : AgentState}

@[simp] theorem State.advancePort_config : s.advancePort.config = s.config := rfl
@[simp] theorem State.advancePort_agent : s.advancePort.agent = s.agent := rfl
@[simp] theorem State.advancePort_agents : s.advancePort.agents = s.agents := rfl
@[simp] theorem State.advancePort_turns : s.advancePort.turns = s.turns := rfl
@[simp] theorem State.advancePort_toAgentState :
    s.advancePort.toAgentState = s.toAgentState.advance s.config := rfl

/-- With a turn left a step always answers: the program at the port advances and the turn begins. -/
theorem step_of_turns (ht : s.turns ≠ []) : step s = .next s.advancePort.yield := by
  rw [step, State.turnOver_of_turns ht]
  cases ho : s.presentNext with
  | next u => rw [State.advancePort_of_next ho]
  | fault r => rw [State.advancePort_of_fault ho]
  | refused r => rw [State.advancePort_of_refused ho]

theorem step_next_of_no_turns (ht : s.turns = []) (hs : step s = .next t) : t = s.advancePort := by
  rw [step, State.turnOver_of_turns_nil ht] at hs
  exact (State.advancePort_of_next hs).symm

/-- Everything a step can do when it answers a next state. -/
theorem step_next (hs : step s = .next t) : t = s.advancePort.yield := by
  by_cases ht : s.turns = []
  · rw [step_next_of_no_turns ht hs, State.yield_of_turns_nil (s := s.advancePort) ht]
  · rw [step_of_turns ht] at hs
    exact (Host.Outcome.next.inj hs).symm

/-- The program at the port is advanced and every other one is as it was (rule R55). -/
theorem State.agentState_advancePort (s : State) (k : Nat) :
    s.advancePort.agentState k =
      if k = s.agent then some (s.toAgentState.advance s.config) else s.agentState k := by
  by_cases hk : k = s.agent <;> simp [State.agentState, hk]

/-- A turn moves the port to its agent if that is there, and no program. -/
theorem State.yield_agent {rest : List Nat} (ht : s.turns = k :: rest) :
    s.yield.agent = if (s.agentState k).isSome then k else s.agent := by
  cases hk : s.agentState k with
  | none => rw [State.yield_of_absent ht hk]; rfl
  | some h => rw [State.yield_of_present ht hk]; rfl

/-- Advancing leaves the same agents there. -/
theorem State.isSome_agentState_advancePort (s : State) (k : Nat) :
    (s.advancePort.agentState k).isSome = (s.agentState k).isSome := by
  rw [State.agentState_advancePort]
  by_cases hk : k = s.agent
  · rw [if_pos hk, hk, State.agentState_self]
    rfl
  · rw [if_neg hk]

/-- A program that has faulted does not advance (rule R176). -/
theorem AgentState.advance_of_record {r : FaultRecord} (c : Config) (hr : h.faultRecord = some r) :
    h.advance c = h := by
  have hfault := State.presentNext_of_record (s := h.alone c) hr
  rw [AgentState.advance, State.step_alone, hfault]

end Step

/-! ### Requests of one program -/

section Commute

variable {α : Type} {n m k : Nat} {u v w : α} {bs : List (Nat × α)}

theorem bindName_cons_of_lt (h : n < k) :
    bindName n v ((k, u) :: bs) = (n, v) :: (k, u) :: bs := by
  rw [bindName, if_pos h]

theorem bindName_cons_self : bindName n v ((n, u) :: bs) = (n, v) :: bs := by
  rw [bindName, if_neg (Nat.lt_irrefl n), if_pos rfl]

theorem bindName_cons_of_gt (h : k < n) :
    bindName n v ((k, u) :: bs) = (k, u) :: bindName n v bs := by
  rw [bindName, if_neg h.not_gt, if_neg h.ne']

theorem bindName_comm_of_lt (h : n < m) (bs : List (Nat × α)) :
    bindName m w (bindName n v bs) = bindName n v (bindName m w bs) := by
  induction bs with
  | nil => exact (bindName_cons_of_gt h).trans (bindName_cons_of_lt h).symm
  | cons p rest ih =>
    obtain ⟨k, u⟩ := p
    rcases Nat.lt_trichotomy n k with hn | rfl | hn
    · rw [bindName_cons_of_lt hn, bindName_cons_of_gt h]
      rcases Nat.lt_trichotomy m k with hm | rfl | hm
      · rw [bindName_cons_of_lt hm, bindName_cons_of_lt h]
      · rw [bindName_cons_self, bindName_cons_of_lt h]
      · rw [bindName_cons_of_gt hm, bindName_cons_of_lt hn]
    · rw [bindName_cons_self, bindName_cons_of_gt h, bindName_cons_of_gt h, bindName_cons_self]
    · have hm : k < m := hn.trans h
      rw [bindName_cons_of_gt hn, bindName_cons_of_gt hm, bindName_cons_of_gt hm,
        bindName_cons_of_gt hn, ih]

/-- Two names can be bound in either order. -/
theorem bindName_comm (hne : n ≠ m) (bs : List (Nat × α)) :
    bindName m w (bindName n v bs) = bindName n v (bindName m w bs) := by
  rcases Nat.lt_or_gt_of_ne hne with hlt | hgt
  · exact bindName_comm_of_lt hlt bs
  · exact (bindName_comm_of_lt hgt bs).symm

end Commute

section Requests

variable {s t : State} {i : Instr} {d : Nat} {v w : Value}

theorem State.complete_comm {e : Nat} (hne : d ≠ e) (s : State) (v w : Value) :
    (s.complete d v).complete e w = (s.complete e w).complete d v := by
  simp only [State.complete, bindName_comm hne]

/-- An operand that does not read a name presents the same when it is bound. -/
theorem State.resolve_complete {o : Operand} (ho : d ∉ operandNames o) :
    (s.complete d v).resolve o = s.resolve o := by
  cases o with
  | lit u => rfl
  | name n | unwrap n =>
    have hne : n ≠ d := by
      rintro rfl
      exact ho List.mem_cons_self
    simp only [State.resolve, State.read_complete_of_ne s hne]

theorem State.resolveAll_complete {os : List Operand} (hos : ∀ o ∈ os, d ∉ operandNames o) :
    (s.complete d v).resolveAll os = s.resolveAll os := by
  induction os with
  | nil => rfl
  | cons o os ih =>
    have ho := State.resolve_complete (s := s) (v := v) (hos o List.mem_cons_self)
    have hrest := ih fun o ho => hos o (List.mem_cons_of_mem _ ho)
    simp only [State.resolveAll, ho, hrest]

theorem State.complete_ne_raise (s : State) (d : Nat) (v : Value) (f : FaultInfo) :
    s.complete d v ≠ s.raise f := by
  intro heq
  have hindex : s.index + 1 = s.index := congrArg (·.index) heq
  omega

theorem State.complete_inj (h : s.complete d v = s.complete d w) : v = w := by
  have hread : (s.complete d v).read d = some w := by rw [h, State.read_complete_self]
  rwa [State.read_complete_self, Option.some.injEq] at hread

/-- A request that completes does so with the same value wherever its operands present the same. -/
theorem exec_complete_congr (h : exec i s = .next (s.complete i.dst v)) (hc : s.config = t.config)
    (hvs : s.resolveAll i.operands = t.resolveAll i.operands) (ht : t.read i.dst = none) :
    exec i t = .next (t.complete i.dst v) := by
  obtain ⟨u, hs, htu⟩ | ⟨f, hs, -⟩ | ⟨r, hs, -⟩ :=
    resultDependsOnlyOnOperands i i s t rfl hc hvs (exec_next h).1 ht
  · rw [h] at hs
    rw [State.complete_inj (Host.Outcome.next.inj hs), htu]
  · rw [h] at hs
    exact absurd (Host.Outcome.next.inj hs) (s.complete_ne_raise _ _ _)
  · rw [h] at hs
    cases hs

end Requests

/-! ### Records -/

section Records

variable {s t : State} {k : Nat} {h : AgentState} {r : FaultRecord}

/-- A key that reads has an entry in the list. -/
theorem mem_of_lookup {α : Type} {n : Nat} {v : α} {bs : List (Nat × α)}
    (hn : lookup n bs = some v) : (n, v) ∈ bs := by
  induction bs with
  | nil => cases hn
  | cons p rest ih =>
    obtain ⟨k, u⟩ := p
    rw [lookup] at hn
    split at hn
    · subst n
      cases hn
      exact List.mem_cons_self
    · exact List.mem_cons_of_mem _ (ih hn)

/-- A state in which some agent's program has faulted is not good (rule R176). -/
theorem State.good_of_record (hk : s.agentState k = some h) (hr : h.faultRecord = some r) :
    s.good = false := by
  refine Bool.eq_false_of_not_eq_true fun hgood => ?_
  simp only [State.good, Bool.and_eq_true, List.all_eq_true, Option.isNone_iff_eq_none] at hgood
  obtain ⟨hport, hothers⟩ := hgood
  have hnone : h.faultRecord = none := by
    by_cases hs : k = s.agent
    · rw [hs, State.agentState_self, Option.some.injEq] at hk
      rwa [← hk]
    · rw [State.agentState_of_ne hs] at hk
      exact hothers (k, h) (mem_of_lookup hk)
  rw [hr] at hnone
  cases hnone

/-- No step changes a program that has faulted. -/
theorem agentState_of_step_of_record (hs : step s = .next t) (hk : s.agentState k = some h)
    (hr : h.faultRecord = some r) : t.agentState k = some h := by
  rw [step_next hs, State.agentState_yield, State.agentState_advancePort]
  split
  · subst k
    rw [State.agentState_self, Option.some.injEq] at hk
    rw [hk, AgentState.advance_of_record _ hr]
  · exact hk

end Records

/-! ### Runs -/

/-- A run of as many steps as turns are left answers a state with none left, in which every agent's
program has advanced once for each time the agent had the port. -/
theorem run_turns (ks : List Nat) (s : State) (hks : s.turns = ks) :
    ∃ t, Sys2Proof.core.run ks.length s = .next t ∧ t.turns = [] ∧ t.config = s.config ∧
      ∀ k h, s.agentState k = some h →
        t.agentState k = some ((AgentState.advance s.config)^[(portHolders
          (fun j => (s.agentState j).isSome) s.agent ks).count k] h) := by
  induction ks generalizing s with
  | nil => exact ⟨s, rfl, hks, rfl, fun _ _ hk => hk⟩
  | cons k₀ rest ih =>
    have hturns : s.advancePort.turns = k₀ :: rest := hks
    have hstep : step s = .next s.advancePort.yield := step_of_turns (by simp [hks])
    obtain ⟨t, hrun, hnil, hconfig, hall⟩ := ih s.advancePort.yield (by simp [hks])
    refine ⟨t, (core_run_of_next _ hstep).trans hrun, hnil, by simpa using hconfig, ?_⟩
    intro k h hk
    simp only [State.agentState_yield, State.yield_config, State.advancePort_config,
      State.isSome_agentState_advancePort, State.yield_agent hturns,
      State.advancePort_agent] at hall
    rw [portHolders, List.count_cons]
    by_cases hport : k = s.agent
    · rw [hport, State.agentState_self, Option.some.injEq] at hk
      subst hk
      have hadvanced := (s.agentState_advancePort k).trans (if_pos hport)
      rw [hall k _ hadvanced, hport]
      simp [Function.iterate_succ_apply]
    · have hkept := (s.agentState_advancePort k).trans (if_neg hport)
      rw [hall k h (hkept.trans hk)]
      simp [Ne.symm hport]

/-! ### The statements -/

/-- Settles O11: the block's fault is recorded by the presenting host, and a program with a record
presents nothing and does not advance. -/
theorem faultEndsProgram : Obligations.FaultEndsProgram := by
  refine ⟨?_, ?_, ?_, ?_⟩
  · intro s f vs info hr hf hd hvs hfault
    have hraise : s.raise info = { s with faultRecord := some ⟨s.index, info⟩ } := by
      simp [State.raise, hr]
    rw [step_eq_present hr hf, State.present_of_unbound hd, hvs, State.presentValues, hfault,
      State.take, hraise]
  · intro s t r hr ht hs
    rw [step, State.presentNext_of_record hr, State.turnOver_of_turns_nil ht] at hs
    cases hs
  · intro s t k h r hk hr
    refine ⟨State.good_of_record hk hr, fun hs => ?_⟩
    have htk := agentState_of_step_of_record hs hk hr
    exact ⟨htk, State.good_of_record htk hr⟩
  · intro i s t r h hr
    obtain ⟨-, ⟨v, -, -, rfl⟩ | ⟨f, -, rfl⟩⟩ := exec_next h
    · exact hr
    · rw [State.raise_faultRecord, hr, Option.some_or]

/-- Settles O13: the program at the port advances by the presented line, which completes, faults or
is refused. -/
theorem requestIndexAdvances : Obligations.RequestIndexAdvances := by
  refine ⟨fun s prog => ⟨rfl, rfl⟩, fun s t f hr hf hs => ?_⟩
  have hnext := State.presentNext_eq_present hr hf
  refine ⟨s.advancePort.toAgentState, ?_, ?_⟩
  · rw [step_next hs, State.agentState_yield, State.agentState_advancePort, if_pos rfl,
      State.advancePort_toAgentState]
  · obtain ⟨v, hp⟩ | ⟨info, hp⟩ | ⟨r, hp⟩ := s.present_cases f
    · rw [State.advancePort_of_next (hnext.trans hp)]
      exact ⟨rfl, .inl ⟨hr, rfl⟩⟩
    · rw [State.advancePort_of_next (hnext.trans hp)]
      exact ⟨rfl, .inr (.inl ⟨by simp [hr], rfl⟩)⟩
    · rw [State.advancePort_of_refused (hnext.trans hp)]
      exact ⟨rfl, .inr (.inr ⟨⟨r, hp⟩, rfl⟩)⟩

/-- Settles O25: each request presents the same operands after the other, and names can be bound in
either order. -/
theorem requestsCommute : Obligations.RequestsCommute := by
  intro i j s v w _ hne hi hj hiv hjw
  have hdi := (exec_next hiv).1
  have hdj := (exec_next hjw).1
  have hji : exec j (s.complete i.dst v) = .next ((s.complete i.dst v).complete j.dst w) :=
    exec_complete_congr hjw rfl (State.resolveAll_complete hj).symm
      ((State.read_complete_of_ne s hne.symm).trans hdj)
  have hij : exec i (s.complete j.dst w) = .next ((s.complete j.dst w).complete i.dst v) :=
    exec_complete_congr hiv rfl (State.resolveAll_complete hi).symm
      ((State.read_complete_of_ne s hne).trans hdi)
  refine ⟨(s.complete i.dst v).complete j.dst w, hji, ?_, ?_, State.read_complete_self _⟩
  · rw [hij, State.complete_comm hne]
  · rw [State.read_complete_of_ne _ hne, State.read_complete_self]

/-- Settles O26: a step advances the program at the port and then begins the next turn, which moves
no program. -/
theorem agentsDoNotInterfere : Obligations.AgentsDoNotInterfere := by
  refine ⟨fun s ht => ?_, fun s t ht hs => step_next_of_no_turns ht hs⟩
  refine ⟨s.advancePort.yield, step_of_turns ht, by simp, by simp, fun k hk => ?_, fun k => ?_⟩
  · obtain ⟨rest, hturns⟩ := List.head?_eq_some_iff.mp hk
    rw [State.yield_agent (s := s.advancePort) hturns, State.isSome_agentState_advancePort,
      State.advancePort_agent]
  · rw [State.agentState_yield, State.agentState_advancePort]

/-- Settles O27, by induction on the turns. -/
theorem everyInterleavingGivesTheSameResults : Obligations.EveryInterleavingGivesTheSameResults :=
  fun s => run_turns s.turns s rfl

end Sys2Proof.Machine
end

section
/-! PROOFS. The invariant of the host programs (10_state.md rules R21 and R27; 60_exceptions.md rule
R176): it holds at the start, a request keeps it, and a turn moves programs and changes none. -/

namespace Sys2Proof.Machine

variable {s t : State} {h : AgentState} {k : Nat}

/-! ### The parts of the invariant -/

/-- The invariant of a host program, part by part. -/
theorem AgentState.inv_iff : h.inv = true ↔
    rising h.bindings = true ∧ h.bindings.length = h.index ∧ valuesOk h.bindings = true ∧
      h.index ≤ h.program.length ∧ h.recordOk = true := by
  simp only [AgentState.inv, Bool.and_eq_true, beq_iff_eq, decide_eq_true_eq, and_assoc]

/-- The invariant of the machine is that of every program it holds. -/
theorem State.inv_iff : s.inv = true ↔
    s.toAgentState.inv = true ∧ rising s.agents = true ∧ ∀ p ∈ s.agents, p.2.inv = true := by
  simp only [State.inv, Bool.and_eq_true, List.all_eq_true, and_assoc]

theorem AgentState.recordOk_of_none (hr : h.faultRecord = none) : h.recordOk = true := by
  simp [AgentState.recordOk, hr]

/-- The index of a line is within the list. -/
theorem State.index_lt_of_fetch {f : Frame} (hf : s.fetch = some f) :
    s.index < s.program.length :=
  (List.getElem?_eq_some_iff.mp hf).1

/-- A property of all entries is kept by binding an entry that has it. -/
theorem forall_mem_bindName {α : Type} {n : Nat} {v : α} {P : Nat × α → Prop}
    {bs : List (Nat × α)} (hv : P (n, v)) (h : ∀ p ∈ bs, P p) : ∀ p ∈ bindName n v bs, P p := by
  induction bs with
  | nil => simpa [bindName] using hv
  | cons q rest ih =>
    obtain ⟨k, w⟩ := q
    obtain ⟨hq, hrest⟩ := List.forall_mem_cons.mp h
    rw [bindName]
    split
    · exact List.forall_mem_cons.mpr ⟨hv, h⟩
    · split
      · exact List.forall_mem_cons.mpr ⟨hv, hrest⟩
      · exact List.forall_mem_cons.mpr ⟨hq, ih hrest⟩

/-! ### What keeps it -/

/-- A program at its start meets the invariant. -/
theorem AgentState.inv_start (prog : List Frame) : (AgentState.start prog).inv = true :=
  AgentState.inv_iff.mpr ⟨rfl, rfl, rfl, Nat.zero_le _, rfl⟩

/-- Completing a request binds one value for one step of the index. -/
theorem State.inv_complete {d : Nat} {v : Value} (h : s.toAgentState.inv = true)
    (hr : s.faultRecord = none) (hlt : s.index < s.program.length) (hd : s.read d = none)
    (hv : v.ok = true) : (s.complete d v).toAgentState.inv = true := by
  obtain ⟨hrising, hlength, hvalues, -, -⟩ := AgentState.inv_iff.mp h
  exact AgentState.inv_iff.mpr ⟨rising_bindName hrising,
    (length_bindName hd).trans (congrArg (· + 1) hlength), valuesOk_bindName hv hvalues, hlt,
    AgentState.recordOk_of_none hr⟩

/-- A fault is recorded for the request at the index. -/
theorem State.inv_raise {f : FaultInfo} (h : s.toAgentState.inv = true)
    (hr : s.faultRecord = none) (hlt : s.index < s.program.length) (hf : faultInfoOk f = true) :
    (s.raise f).toAgentState.inv = true := by
  obtain ⟨hrising, hlength, hvalues, hle, -⟩ := AgentState.inv_iff.mp h
  have hrecord : (s.raise f).recordOk = true := by
    simp [AgentState.recordOk, hr, hlt, hf]
  exact AgentState.inv_iff.mpr ⟨hrising, hlength, hvalues, hle, hrecord⟩

/-- Presenting the next request keeps the program's invariant. -/
theorem State.inv_of_presentNext (h : s.toAgentState.inv = true) (ht : s.presentNext = .next t) :
    t.toAgentState.inv = true := by
  obtain rfl | ⟨hr, f, i, hf, hi⟩ := State.presentNext_next ht
  · exact h
  · have hlt := State.index_lt_of_fetch hf
    obtain ⟨hd, ⟨v, -, hv, rfl⟩ | ⟨info, hinfo, rfl⟩⟩ := exec_next hi
    · exact State.inv_complete h hr hlt hd hv
    · exact State.inv_raise h hr hlt hinfo

/-- Advancing keeps the program's invariant. -/
theorem State.inv_advancePort (h : s.inv = true) : s.advancePort.inv = true := by
  obtain ⟨hport, hrising, hothers⟩ := State.inv_iff.mp h
  refine State.inv_iff.mpr ⟨?_, hrising, hothers⟩
  cases ho : s.presentNext with
  | next t =>
    rw [State.advancePort_of_next ho]
    exact State.inv_of_presentNext hport ho
  | fault r => rwa [State.advancePort_of_fault ho]
  | refused r => rwa [State.advancePort_of_refused ho]

/-- Every agent's program meets the invariant of the machine's programs. -/
theorem State.inv_of_agentState (h : s.inv = true) {a : AgentState} (hk : s.agentState k = some a) :
    a.inv = true := by
  obtain ⟨hport, -, hothers⟩ := State.inv_iff.mp h
  by_cases hs : k = s.agent
  · rw [hs, State.agentState_self, Option.some.injEq] at hk
    rwa [← hk]
  · rw [State.agentState_of_ne hs] at hk
    exact hothers (k, a) (mem_of_lookup hk)

/-- A turn puts one program of the machine in the place of another. -/
theorem State.inv_yield (h : s.inv = true) : s.yield.inv = true := by
  obtain ⟨hport, hrising, hothers⟩ := State.inv_iff.mp h
  cases ht : s.turns with
  | nil => rwa [State.yield_of_turns_nil ht]
  | cons k rest =>
    cases hk : s.agentState k with
    | none =>
      rw [State.yield_of_absent ht hk]
      exact State.inv_iff.mpr ⟨hport, hrising, hothers⟩
    | some a =>
      rw [State.yield_of_present ht hk]
      exact State.inv_iff.mpr ⟨State.inv_of_agentState h hk, rising_bindName hrising,
        forall_mem_bindName hport hothers⟩

/-- An agent joins with a program at its start. -/
theorem State.inv_addAgent (h : s.inv = true) (k : Nat) (prog : List Frame) :
    (s.addAgent k prog).inv = true := by
  obtain ⟨hport, hrising, hothers⟩ := State.inv_iff.mp h
  unfold State.addAgent
  split
  · exact State.inv_iff.mpr ⟨AgentState.inv_start prog, hrising, hothers⟩
  · exact State.inv_iff.mpr ⟨hport, rising_bindName hrising,
      forall_mem_bindName (AgentState.inv_start prog) hothers⟩

/-! ### The statements -/

/-- Settles O15: a step advances the program at the port by one request, which keeps its invariant,
and then begins a turn. -/
theorem stepKeepsInv : Obligations.StepKeepsInv := by
  intro s t hinv hs
  rw [step_next hs]
  exact State.inv_yield (State.inv_advancePort hinv)

/-- Settles O14: programs are loaded at their start, and turns are no part of the invariant. -/
theorem invHoldsAtStart : Obligations.InvHoldsAtStart := by
  refine ⟨rfl, fun s k prog ks hinv => ⟨?_, State.inv_addAgent hinv k prog, hinv⟩⟩
  obtain ⟨-, hrising, hothers⟩ := State.inv_iff.mp hinv
  exact State.inv_iff.mpr ⟨AgentState.inv_start prog, hrising, hothers⟩

end Sys2Proof.Machine
end

section
/-! PROOFS. The pseudo-operations of a host program (30_encoding.md rule R75): the two requests of a
frame run one after the other, and the names above every name of a program are fresh. -/

namespace Sys2Proof.Machine

/-! ### The requests of a frame -/

section Frame

variable {s : State} {t d : Nat} {r : Operand} {b : Bool}

/-- After a request bound an encoding to vT, IDREG_WITH_RTR on vT gives the encoding with the RTR
flag that its other operand presented before. -/
theorem exec_idregWithRtr_after (q : IdReg) (ht : s.read t = none) (hd : s.read d = none)
    (hne : t ≠ d) (hr : s.resolve r = .ok (.bool b)) :
    exec (.idregWithRtr d (.name t) r) (s.complete t (.idReg q)) =
      .next ((s.complete t (.idReg q)).complete d (.idReg (withRtr q b))) := by
  have hkept : ∀ n w, s.read n = some w → (s.complete t (.idReg q)).read n = some w := by
    intro n w hn
    have hnt : n ≠ t := by
      rintro rfl
      exact absurd (ht.symm.trans hn) nofun
    rw [State.read_complete_of_ne s hnt, hn]
  exact exec_idregWithRtr ((State.read_complete_of_ne s hne.symm).trans hd)
    (State.resolve_name (State.read_complete_self s)) (State.resolve_of_read hkept hr)

/-- An extended encoding with its RTR bit, its code word put together from SRR and RTR. -/
theorem withRtr_newExt_or (c : Bool) (x : Word) (b : Bool) :
    withRtr (newExt c x) b =
      ⟨(if c then 0x00600000 else 0x00200000) ||| (if b then 0x00100000 else 0), x⟩ := by
  rw [withRtr_newExt]
  cases c <;> cases b <;> rfl

end Frame

/-! ### Fresh names -/

section Fresh

variable {ls : List Line}

/-- A number above every number of a list. -/
theorem lt_foldr_max {ns : List Nat} {n : Nat} (h : n ∈ ns) :
    n < ns.foldr (fun n m => max (n + 1) m) 0 := by
  induction ns with
  | nil => cases h
  | cons m ns ih =>
    rw [List.foldr_cons]
    rcases List.mem_cons.mp h with rfl | hmem
    · exact lt_max_of_lt_left (Nat.lt_succ_self n)
    · exact lt_max_of_lt_right (ih hmem)

/-- Every name of a program is below its fresh names. -/
theorem lt_freshName {l : Line} {n : Nat} (hl : l ∈ ls) (hn : n ∈ lineNames l) :
    n < freshName ls :=
  lt_foldr_max (List.mem_flatMap.mpr ⟨l, hl, hn⟩)

/-- The k-th line is expanded with the k-th fresh name. -/
theorem expandLines_eq_flatMap (t k : Nat) (ls : List Line) :
    expandLines (t + k) ls = (ls.zipIdx k).flatMap fun p => p.1.expand (t + p.2) := by
  induction ls generalizing k with
  | nil => rfl
  | cons l ls ih => rw [expandLines, List.zipIdx_cons, List.flatMap_cons, ← ih, Nat.add_assoc]

end Fresh

/-! ### The statement -/

/-- Settles O60: the encoder's request binds vT, which the second request reads; and the numbers
from above every name of the program up are all different and none of its names. -/
theorem pseudoOperationsExpandAndRun : Obligations.PseudoOperationsExpandAndRun := by
  refine ⟨?_, ?_, fun t d => ⟨rfl, rfl, rfl, rfl⟩, ?_, fun ls => ⟨(freshName ls + ·), ?_⟩⟩
  · intro s t d a r x b ht hd hne ha hx hr
    refine ⟨rfl, _, _, exec_idregNewStd ht ha hx, exec_idregWithRtr_after _ ht hd hne hr, ?_⟩
    rw [State.read_complete_self, withRtr_newStd]
  · intro s t d a r x b ht hd hne ha hx hr
    refine ⟨rfl, _, _, exec_idregNewExt ht ha hx, exec_idregWithRtr_after _ ht hd hne hr, ?_⟩
    rw [State.read_complete_self, withRtr_newExt_or]
  · intro text ls hls
    rw [assemble, hls]
    rfl
  · refine ⟨fun k => rfl, fun j k hjk => ?_, fun l hl n hn k => ?_, expandLines_eq_flatMap _ 0 ls⟩
    · exact mt Nat.add_left_cancel hjk
    · exact Nat.ne_of_gt (Nat.lt_add_right k (lt_freshName hl hn))

end Sys2Proof.Machine
end
